-- ==== Sys2Proof/Word.lean ====
section
/-! DEFINITION. The two sizes of data the hardware handles (rule R10): a byte on the wire and in a
frame, and a 16-bit word in a register. Counts, lengths, sums of an address and a count and the
silence counter are unbounded (rule R10), so they are `Nat` wherever they stand. -/

namespace Sys2Proof

/-- An unsigned 8-bit value, 0 to 255 (rule R10). -/
abbrev Byte := BitVec 8

/-- An unsigned 16-bit value, 0 to 65535 (rule R10): a register's contents, a register address in a
request, a CRC. -/
abbrev Word := BitVec 16

end Sys2Proof
end

