-- ==== Sys2Proof/Config.lean ====
section
/-! DEFINITION. The implementation parameters of rule R5: the ones the spec gives a value are the
constants below; the ones it leaves OPEN (`T_IF`, `T_IC`, `ERR_ON_MISSING_SLAVE`, `INTERNAL_FAULT`)
are the fields of `Params`, a record that every machine state carries and no step changes, so a
statement about every state is a statement about every instance. The values of the device model that
are left free are constants without a body. -/

namespace Sys2Proof

namespace Config

/-- `MIN_FRAME`, the least frame length in bytes (rule R5). -/
abbrev minFrame : Nat := 4

/-- `MAX_FRAME`, the greatest frame length in bytes (rule R5, conflict C1). -/
abbrev maxFrame : Nat := 256

/-- `MAX_PDU` = `MAX_FRAME - 3` (rule R5, conflict C1). -/
abbrev maxPdu : Nat := 253

/-- The longest payload: a PDU less its function-code byte (rules R5 and R117). -/
abbrev maxPayload : Nat := 252

/-- `MAX_READ_COUNT` (rules R5 and R248). -/
abbrev maxReadCount : Nat := 125

/-- `MAX_WRITE_COUNT` (rules R5 and R249). -/
abbrev maxWriteCount : Nat := 123

/-- `ADDR_MIN`, the least address a slave can be registered at (rule R5). -/
abbrev addrMin : Nat := 1

/-- `ADDR_MAX`, the greatest address a slave can be registered at (rule R5). -/
abbrev addrMax : Nat := 247

/-- `ADDR_BROADCAST` (rule R5). -/
def addrBroadcast : Byte := 0x00#8

/-- How many register addresses a space has (rules R21 and R23). -/
abbrev spaceSize : Nat := 65536

/-- `EXC_ILLEGAL_FUNCTION` (rules R5 and R301). -/
def excIllegalFunction : Byte := 0x01#8

/-- `EXC_ILLEGAL_DATA_ADDRESS` (rules R5 and R301). -/
def excIllegalDataAddress : Byte := 0x02#8

/-- `EXC_ILLEGAL_DATA_VALUE` (rules R5 and R301). -/
def excIllegalDataValue : Byte := 0x03#8

/-- `EXC_SLAVE_DEVICE_FAILURE` (rules R5 and R301). -/
def excSlaveDeviceFailure : Byte := 0x04#8

/-- `BLOCK_INIT`, what a register of a new block holds (rules R5 and R272, the spec's decision D22;
log entry 6). -/
def blockInit : Word := 0x0000#16

/-- `CRC_INIT` (rules R5 and R140). -/
def crcInit : Word := 0xFFFF#16

/-- `CRC_POLY`, the reflected polynomial (rules R5 and R140). -/
def crcPoly : Word := 0xA001#16

/-- Whether a temperature whose tenths lie half way between two integers is rounded up:
`TEMP_ROUND_TIES`, OPEN (rule R412, decision D38; log entry 10). -/
opaque tempTieUp : Rat → Bool

/-- The register word for a temperature outside -3276.8 to 3276.7, or none if it is not written:
`TEMP_OUT_OF_RANGE`, OPEN (rule R412, decision D38; log entry 10). -/
opaque tempOutOfRange : Rat → Option Word

/-- Whether `get_timer` of a relay reads the register or the device's own timer array, which the spec
leaves open (rule R407; log entry 10). -/
opaque timerReadsRegister : Bool

end Config

/-- The parameters rule R5 leaves OPEN: constants of an instance for its whole life. `TICK`, the
length of one tick, is not here: no rule computes with it (log entry 8). -/
structure Params where
  /-- `T_IF`, the inter-frame timeout in ticks. -/
  tIF : Nat
  /-- `T_IC`, the inter-character timeout in ticks. -/
  tIC : Nat
  /-- `ERR_ON_MISSING_SLAVE`, the value that `Reset` gives the mode. -/
  errOnMissingSlave : Bool
  /-- `INTERNAL_FAULT`, the oracle of rule R209, as the list of the (address, request PDU) pairs it
  answers true for; the empty list is the spec's default `never` (log entry 3). -/
  internalFault : List (Byte × List Byte)
  deriving DecidableEq, Repr

/-- The constraint on an instance, `1 <= T_IC <= T_IF` (rules R5 and R175). -/
def Params.legal (p : Params) : Bool := decide (1 ≤ p.tIC ∧ p.tIC ≤ p.tIF)

/-- DESIGN CHOICE (log entry 2). The instance `State.reset` describes: the one all vectors of
95_test_vectors.md use, `T_IF = 4`, `T_IC = 2`, the mode off and `INTERNAL_FAULT` = never. -/
def Params.vectors : Params :=
  { tIF := 4, tIC := 2, errOnMissingSlave := false, internalFault := [] }

end Sys2Proof
end

