-- ==== Sys2Proof/Machine/Bytes.lean ====
section
/-! DEFINITION. Byte order (rules R10, R62, R63 and R108): a 16-bit field of a PDU is sent high byte
first. The CRC alone is sent low byte first; Machine/Crc.lean says so there. -/

namespace Sys2Proof.Machine

/-- The word two bytes form, the high one first: `be16(h, l) = h * 256 + l` (rule R10). -/
def be16 (h l : Byte) : Word := h ++ l

/-- `hi(w) = w[15:8]` (rule R10). -/
def hi (w : Word) : Byte := w.extractLsb' 8 8

/-- `lo(w) = w[7:0]` (rule R10). -/
def lo (w : Word) : Byte := w.extractLsb' 0 8

/-- Words as they stand in a PDU, each high byte first, in order (rules R62, R104 and R105). -/
def wordBytes : List Word → List Byte
  | [] => []
  | w :: ws => hi w :: lo w :: wordBytes ws

/-- The words that pairs of bytes form, in order (rules R104 and R108). -/
def bytePairs : List Byte → List Word
  | h :: l :: bs => be16 h l :: bytePairs bs
  | [_] => []
  | [] => []

end Sys2Proof.Machine
end

