-- ==== Sys2Proof/Machine/Crc.lean ====
section
/-! DEFINITION. The CRC-16/Modbus generator and checker (40_crc.md, rules R140 to R148): pure
functions, no state (rule R29). -/

namespace Sys2Proof.Machine

/-- One pass of the loop of rule R141: shift right by one, and exclusive-or with the polynomial if
the bit shifted out was 1. -/
def crcShift (c : Word) : Word :=
  if c.getLsbD 0 then (c >>> 1) ^^^ Config.crcPoly else c >>> 1

/-- `crc_update(c, b)` (rule R141): the byte enters the low half, then eight shifts. -/
def crcUpdate (c : Word) (b : Byte) : Word := crcShift^[8] (c ^^^ b.setWidth 16)

/-- `crc16(bs)` (rule R142): from 0xFFFF, one `crc_update` a byte, in order. -/
def crc16 (bs : List Byte) : Word := bs.foldl crcUpdate Config.crcInit

/-- `crc_append(bs)` (rules R63 and R143): the low byte of the CRC goes first. -/
def crcAppend (bs : List Byte) : List Byte := bs ++ [lo (crc16 bs), hi (crc16 bs)]

/-- `verify(f)` (rule R144): at least two bytes, and the CRC of all but the last two equals the last
two taken low byte first. -/
def verify (f : List Byte) : Bool :=
  decide (2 ≤ f.length) &&
    crc16 (f.take (f.length - 2)) == be16 (f.getD (f.length - 1) 0) (f.getD (f.length - 2) 0)

end Sys2Proof.Machine
end

