-- ==== Sys2Proof/Syntax.lean ====
section
/-! DEFINITION. The instruction set (rules R1, R9, R111, R116, R117): one constructor for each row of
spec/opcode_table.json. A request row is a frame the hardware executes, a response row a frame it
sends. A term is the mnemonic line of rule R116, whose CRC is implied; the two shapes a request's
payload can have, the function's own or another, are told apart here once. -/

namespace Sys2Proof

/-- The two register spaces of a slave (rules R21, R22 and R60). -/
inductive Space where
  /-- The holding registers, read by function 0x03 and written by 0x10. -/
  | holding
  /-- The input registers, read by function 0x04 and never written from the bus. -/
  | input
  deriving DecidableEq, Repr

/-- The payload of a read request: the two fields of rule R103, or bytes that do not have that shape,
which the hardware answers with `IllegalDataValue` (rule R246). -/
inductive ReadOperands where
  | fields (start count : Word)
  | malformed (payload : List Byte)
  deriving DecidableEq, Repr

/-- The payload of a write request: the start address and values of rule R104, whose count and byte
count are those of the list (rule R116), or bytes that do not have that shape (rule R246). -/
inductive WriteOperands where
  | fields (start : Word) (values : List Word)
  | malformed (payload : List Byte)
  deriving DecidableEq, Repr

/-- The exception codes by name (rule R301). -/
inductive ExcCode where
  | illegalFunction
  | illegalDataAddress
  | illegalDataValue
  | slaveDeviceFailure
  deriving DecidableEq, Repr

/-- The rows of spec/opcode_table.json. -/
inductive Instr where
  /-- `RHR`, ReadHoldingRegisters, function 0x03 (rule R241). -/
  | rhr (addr : Byte) (ops : ReadOperands)
  /-- `RIR`, ReadInputRegisters, function 0x04 (rule R242). -/
  | rir (addr : Byte) (ops : ReadOperands)
  /-- `WMR`, WriteMultipleRegisters, function 0x10 (rule R243). -/
  | wmr (addr : Byte) (ops : WriteOperands)
  /-- `WSR`, WriteSingleRegister, function 0x06, rejected (rule R244); its payload is not decoded. -/
  | wsr (addr : Byte) (payload : List Byte)
  /-- `ILLEGAL`, every other function code, rejected (rule R245); its payload is not decoded. -/
  | illegal (addr function : Byte) (payload : List Byte)
  /-- `RHR.rsp`, the answer to a read of holding registers (rule R105). -/
  | rhrRsp (addr : Byte) (values : List Word)
  /-- `RIR.rsp`, the answer to a read of input registers (rule R105). -/
  | rirRsp (addr : Byte) (values : List Word)
  /-- `WMR.rsp`, the answer to a write (rule R106). -/
  | wmrRsp (addr : Byte) (start count : Word)
  /-- `EXC`, an exception response (rule R107); `function` is the frame's own function byte, the
  request's with bit 7 set. -/
  | exc (addr function : Byte) (code : ExcCode)
  deriving DecidableEq, Repr

/-- A request row (`direction` = `request`): a frame the hardware receives (rule R117). -/
def Instr.isRequest : Instr → Bool
  | .rhr _ _ => true
  | .rir _ _ => true
  | .wmr _ _ => true
  | .wsr _ _ => true
  | .illegal _ _ _ => true
  | .rhrRsp _ _ => false
  | .rirRsp _ _ => false
  | .wmrRsp _ _ _ => false
  | .exc _ _ _ => false

/-- The address byte of the frame (rule R100). -/
def Instr.addr : Instr → Byte
  | .rhr a _ => a
  | .rir a _ => a
  | .wmr a _ => a
  | .wsr a _ => a
  | .illegal a _ _ => a
  | .rhrRsp a _ => a
  | .rirRsp a _ => a
  | .wmrRsp a _ _ => a
  | .exc a _ _ => a

end Sys2Proof
end

