-- ==== Sys2Proof/Decode.lean ====
section
/-! DEFINITION. From bytes to instructions and back (30_encoding.md). `decode` reads a received frame
with the request rows of the table (rule R117), `decodeResponse` reads a frame with the response
rows, as its receiver does; the two are never mixed. `encode` writes the frame of any instruction,
CRC included. Everything is total: a frame that has no meaning is rejected under a name. -/

namespace Sys2Proof

open Sys2Proof.Machine

/-- Why a byte sequence is no frame, or no response. -/
inductive DecodeError where
  /-- Fewer than 4 bytes (rule R101). -/
  | tooShort
  /-- More than 256 bytes (rule R101). -/
  | tooLong
  /-- The last two bytes are not the CRC of the others (rules R101 and R144). -/
  | crcMismatch
  /-- A response whose function byte no response row matches (rule R117). -/
  | noSuchResponse
  /-- A response whose payload does not have its row's shape (rules R105 to R107). -/
  | badResponsePayload
  /-- An exception response whose code is not one of the four (rule R301). -/
  | noSuchException
  deriving DecidableEq, Repr

/-- The function codes of the request rows that name one (rule R111). -/
def fcReadHolding : Byte := 0x03#8
/-- 0x04 (rule R111). -/
def fcReadInput : Byte := 0x04#8
/-- 0x10 (rule R111). -/
def fcWriteMultiple : Byte := 0x10#8
/-- 0x06 (rules R111 and R112). -/
def fcWriteSingle : Byte := 0x06#8

/-- The byte of an exception code (rule R301). -/
def excByte : ExcCode → Byte
  | .illegalFunction => Config.excIllegalFunction
  | .illegalDataAddress => Config.excIllegalDataAddress
  | .illegalDataValue => Config.excIllegalDataValue
  | .slaveDeviceFailure => Config.excSlaveDeviceFailure

/-- The exception a code byte names, if it names one (rule R301). -/
def excOfByte (b : Byte) : Option ExcCode :=
  if b = Config.excIllegalFunction then some .illegalFunction
  else if b = Config.excIllegalDataAddress then some .illegalDataAddress
  else if b = Config.excIllegalDataValue then some .illegalDataValue
  else if b = Config.excSlaveDeviceFailure then some .slaveDeviceFailure
  else none

/-- The payload of a read request (rules R103 and R108): exactly four bytes, or malformed (rule R246). -/
def decodeReadOperands : List Byte → ReadOperands
  | [startHi, startLo, countHi, countLo] => .fields (be16 startHi startLo) (be16 countHi countLo)
  | p => .malformed p

/-- The payload of a write request (rules R104 and R108). Its shape is `WellFormedWrite` of rule R246:
at least five bytes, the byte count twice the register count without wrap-around, and as many value
bytes as it says. -/
def decodeWriteOperands : List Byte → WriteOperands
  | startHi :: startLo :: countHi :: countLo :: byteCount :: vs =>
    if byteCount.toNat = 2 * (be16 countHi countLo).toNat ∧ vs.length = byteCount.toNat then
      .fields (be16 startHi startLo) (bytePairs vs)
    else .malformed (startHi :: startLo :: countHi :: countLo :: byteCount :: vs)
  | p => .malformed p

/-- The request a function code and a payload stand for (rule R111): all 256 codes are decoded. -/
def decodeRequest (a fc : Byte) (p : List Byte) : Instr :=
  if fc = fcReadHolding then .rhr a (decodeReadOperands p)
  else if fc = fcReadInput then .rir a (decodeReadOperands p)
  else if fc = fcWriteMultiple then .wmr a (decodeWriteOperands p)
  else if fc = fcWriteSingle then .wsr a p
  else .illegal a fc p

/-- A frame cut into address, function code and payload, less its two CRC bytes (rules R100, R102 and
R203). Fewer than two bytes give zeros and no payload; no frame is that short (rule R101). -/
def splitFrame : List Byte → Byte × Byte × List Byte
  | a :: fc :: rest => (a, fc, rest.take (rest.length - 2))
  | _ => (0x00#8, 0x00#8, [])

/-- The request in a frame whose CRC has been checked. -/
def decodeVerified (f : List Byte) : Instr :=
  decodeRequest (splitFrame f).1 (splitFrame f).2.1 (splitFrame f).2.2

/-- What makes a byte sequence a frame (rule R101): its length, then its CRC. -/
def frameError (f : List Byte) : Option DecodeError :=
  if f.length < Config.minFrame then some .tooShort
  else if Config.maxFrame < f.length then some .tooLong
  else if verify f then none
  else some .crcMismatch

/-- A received frame, read with the request rows (rules R111 and R117). -/
def decode (f : List Byte) : Except DecodeError Instr :=
  match frameError f with
  | some e => .error e
  | none => .ok (decodeVerified f)

/-- The values of a read response (rule R105): a byte count, then as many bytes, one to 125 words of
them (rules R66 and R109). -/
def decodeReadResponse : List Byte → Option (List Word)
  | byteCount :: vs =>
    if vs.length = byteCount.toNat ∧ vs.length % 2 = 0 ∧ vs.length ≠ 0 ∧
        vs.length ≤ 2 * Config.maxReadCount then some (bytePairs vs)
    else none
  | [] => none

/-- The two fields a write response echoes (rule R106), for one to 123 registers (rule R249). -/
def decodeWriteResponse : List Byte → Option (Word × Word)
  | [startHi, startLo, countHi, countLo] =>
    if (be16 countHi countLo).toNat ≠ 0 ∧
        (be16 countHi countLo).toNat ≤ Config.maxWriteCount then
      some (be16 startHi startLo, be16 countHi countLo)
    else none
  | _ => none

/-- The code of an exception response (rule R107). -/
def decodeExceptionPayload : List Byte → Except DecodeError ExcCode
  | [c] =>
    match excOfByte c with
    | some code => .ok code
    | none => .error .noSuchException
  | _ => .error .badResponsePayload

/-- The response a function byte and a payload stand for (rule R117): the response rows. -/
def decodeResponseBody (a fc : Byte) (p : List Byte) : Except DecodeError Instr :=
  if fc.getLsbD 7 then
    match decodeExceptionPayload p with
    | .ok code => .ok (.exc a fc code)
    | .error e => .error e
  else if fc = fcReadHolding then
    match decodeReadResponse p with
    | some vs => .ok (.rhrRsp a vs)
    | none => .error .badResponsePayload
  else if fc = fcReadInput then
    match decodeReadResponse p with
    | some vs => .ok (.rirRsp a vs)
    | none => .error .badResponsePayload
  else if fc = fcWriteMultiple then
    match decodeWriteResponse p with
    | some (start, count) => .ok (.wmrRsp a start count)
    | none => .error .badResponsePayload
  else .error .noSuchResponse

/-- A frame read with the response rows (rules R105 to R107 and R117), as the master that receives it
does. The hardware itself never reads a frame so (rule R206). -/
def decodeResponse (f : List Byte) : Except DecodeError Instr :=
  match frameError f with
  | some e => .error e
  | none => decodeResponseBody (splitFrame f).1 (splitFrame f).2.1 (splitFrame f).2.2

/-! ### The encoder -/

/-- The payload of a read request (rule R103). -/
def encodeReadOperands : ReadOperands → List Byte
  | .fields start count => [hi start, lo start, hi count, lo count]
  | .malformed p => p

/-- The payload of a write request (rule R104): the count and the byte count are those of the list. -/
def encodeWriteOperands : WriteOperands → List Byte
  | .fields start values =>
    hi start :: lo start :: hi (BitVec.ofNat 16 values.length) :: lo (BitVec.ofNat 16 values.length)
      :: BitVec.ofNat 8 (2 * values.length) :: wordBytes values
  | .malformed p => p

/-- The payload of a read response (rule R105). -/
def encodeReadResponse (values : List Word) : List Byte :=
  BitVec.ofNat 8 (2 * values.length) :: wordBytes values

/-- The PDU of an instruction (rule R102): function code, then payload. -/
def Instr.pdu : Instr → List Byte
  | .rhr _ ops => fcReadHolding :: encodeReadOperands ops
  | .rir _ ops => fcReadInput :: encodeReadOperands ops
  | .wmr _ ops => fcWriteMultiple :: encodeWriteOperands ops
  | .wsr _ p => fcWriteSingle :: p
  | .illegal _ fc p => fc :: p
  | .rhrRsp _ values => fcReadHolding :: encodeReadResponse values
  | .rirRsp _ values => fcReadInput :: encodeReadResponse values
  | .wmrRsp _ start count => [fcWriteMultiple, hi start, lo start, hi count, lo count]
  | .exc _ fc code => [fc, excByte code]

/-- The frame of an instruction (rules R100 and R110): address, PDU, CRC low byte first. -/
def encode (i : Instr) : List Byte := crcAppend (i.addr :: i.pdu)

/-! ### The opcode table's own numbering -/

/-- The payload of a table word: the bytes of `w` above the function code, low byte first, and at
least as many as the row's shortest frame has, the missing ones zero (log entry 9). -/
def tablePayloadLength (nbits : Nat) (fc : Byte) : Nat :=
  min Config.maxPayload
    (max (nbits / 8 - 1)
      (if fc = fcReadHolding ∨ fc = fcReadInput then 4 else if fc = fcWriteMultiple then 5 else 0))

/-- The bytes of a number, the least significant first. -/
def lowBytes (w : Nat) : Nat → List Byte
  | 0 => []
  | n + 1 => BitVec.ofNat 8 w :: lowBytes (w / 256) n

/-- The frame a word of spec/opcode_table.json stands for. The table numbers a row's bits from the
function-code byte (`match_byte_offset` = 1, rule R117), so the address byte is none of them and is
0; the CRC is the implied one (rule R116; log entry 9). -/
def tableFrame (nbits w : Nat) : List Byte :=
  crcAppend (0x00#8 :: BitVec.ofNat 8 w ::
    lowBytes (w / 256) (tablePayloadLength nbits (BitVec.ofNat 8 w)))

/-- The instruction the decoder reads from a word of spec/opcode_table.json. A received frame is
always read with the request rows (rule R117), so the word of a response row gives the request that
has the same function byte. -/
def decodeTableWord (nbits w : Nat) : Option Instr :=
  match decode (tableFrame nbits w) with
  | .ok i => some i
  | .error _ => none

end Sys2Proof
end

