-- ==== Sys2Proof/Machine/State.lean ====
section
/-! DEFINITION. The state of one instance (10_state.md, rules R20 to R34) as plain data, what the
hardware receives and emits (rule R7), and the state after reset. -/

namespace Sys2Proof.Machine

/-! ### Register banks (rules R21 to R24) -/

/-- A block (rule R23): registers at addresses `start`, `start + 1`, … holding the words of `data`. -/
structure Block where
  start : Nat
  data : List Word
  deriving DecidableEq, Repr

/-- How many registers a block has (rule R23). -/
def Block.length (b : Block) : Nat := b.data.length

/-- The register bank of one slave (rule R24): its two spaces' blocks, each list by rising start
address (log entry 4). -/
structure Bank where
  hold : List Block
  inp : List Block
  deriving DecidableEq, Repr

/-- The slave table (rule R24): the registered addresses in rising order, each with its bank. A
register exists only inside a declared block, so this is all the memory a request or a host command
can name, and an address no block lists reads as nothing at all: the access fails (rule R64). -/
abbrev Memory := List (Nat × Bank)

/-- The blocks of one space in canonical form, none starting below `lo`: each has at least one
register, ends within the space, and ends before the next one starts (rule R23). -/
def blocksWf : Nat → List Block → Bool
  | _, [] => true
  | lo, b :: bs =>
    decide (lo ≤ b.start ∧ 1 ≤ b.length ∧ b.start + b.length ≤ Config.spaceSize) &&
      blocksWf (b.start + b.length) bs

def Bank.wf (bk : Bank) : Bool := blocksWf 0 bk.hold && blocksWf 0 bk.inp

/-- The entries of a slave table in canonical form, none below `lo`. -/
def Memory.wfFrom : Nat → Memory → Bool
  | _, [] => true
  | lo, (a, bk) :: m => decide (lo ≤ a ∧ a ≤ Config.addrMax) && bk.wf && Memory.wfFrom (a + 1) m

/-- The canonical form of the register banks: addresses 1 to 247, rising, each bank's blocks in
canonical form. Equal register banks are then equal data. -/
def Memory.wf (m : Memory) : Bool := Memory.wfFrom Config.addrMin m

/-! ### The frame assembler (rules R25 to R27) -/

/-- `asm.state` between two events (rule R25): `FrameComplete` and `Error` are passed through inside
one event. -/
inductive AsmState where
  | idle
  | receiving
  deriving DecidableEq, Repr

/-- The assembler. `buf` is the valid part of `asm.buf`, oldest byte first, and `asm.len` is its
length: no rule reads a byte past it (rule R26; log entry 5). `sil` is `asm.sil`. -/
structure Assembler where
  state : AsmState
  buf : List Byte
  sil : Nat
  deriving DecidableEq, Repr

/-- `asm.len` (rule R26). -/
def Assembler.len (asm : Assembler) : Nat := asm.buf.length

/-- The assembler in `Idle`, empty (rule R34). -/
def Assembler.empty : Assembler := { state := .idle, buf := [], sil := 0 }

/-! ### What comes in and what goes out (rule R7) -/

/-- The input events of rule R7. -/
inductive Event where
  | reset
  /-- One byte received from the transport. -/
  | rxByte (b : Byte)
  /-- One unit of time with no byte received. -/
  | tick
  | start
  | stop
  | addSlave (a : Nat)
  | removeSlave (a : Nat)
  | addBlock (a : Nat) (space : Space) (start : Word) (length : Nat)
  | setErrOnMissingSlave (v : Bool)
  | hostRead (a : Nat) (space : Space) (start : Word) (count : Nat)
  | hostWrite (a : Nat) (space : Space) (start : Word) (values : List Word)
  deriving DecidableEq, Repr

/-- What `ErrorHook` reports (rule R216). -/
inductive ErrorKind where
  | crcMismatch
  | unknownSlave
  deriving DecidableEq, Repr

/-- Why the assembler dropped bytes (rule R171). -/
inductive DropReason where
  | interCharGap
  | oversize
  | shortFrame
  deriving DecidableEq, Repr

/-- The named errors of host commands (rule R303). -/
inductive ConfigError where
  | duplicateAddress
  | invalidAddress
  | unknownSlave
  | overlapError
  | invalidBlock
  | illegalAddress
  | alreadyRunning
  deriving DecidableEq, Repr

/-- The result of a host command (rule R7): `ok`, a value, or a named error. -/
inductive HostResult where
  | ok
  | value (words : List Word)
  | error (e : ConfigError)
  deriving DecidableEq, Repr

/-- The output events of rule R7. -/
inductive Output where
  /-- `Tx`: a whole response frame handed to the transport (rule R213). -/
  | tx (frame : List Byte)
  /-- `ErrorHook` (rule R216). -/
  | errorHook (kind : ErrorKind) (frame : List Byte)
  /-- `RequestHandled` (rule R210). -/
  | requestHandled (slaveId : Byte) (requestPdu responsePdu : List Byte)
  /-- `AsmDrop` (rule R171). -/
  | asmDrop (reason : DropReason)
  /-- The result of a host command. -/
  | result (r : HostResult)
  deriving DecidableEq, Repr

/-- Why an access to a bank fails (rules R275 and R276). -/
inductive BankError where
  | illegalAddress
  | illegalFunction
  deriving DecidableEq, Repr

/-! ### The state -/

/-- The state of one instance. The first four fields after `params` are the whole record of rule R20.
`params` are the constants of the instance (rule R5), which nothing changes. `inputs` and `outputs`
are the model's own (log entry 1): the events still to come, and what has been emitted so far. -/
structure State where
  /-- The parameters of the instance (rules R5 and R33). -/
  params : Params
  /-- `run` (rule R28). -/
  run : Bool
  /-- The frame assembler (rules R25 to R27). -/
  asm : Assembler
  /-- `err_on_missing_slave` (rule R30). -/
  errOnMissingSlave : Bool
  /-- `slaves`, with every register (rules R21 to R24). -/
  slaves : Memory
  /-- The input events that will be handled, the next one first (rules R7 and R8). -/
  inputs : List Event
  /-- The output events so far, the earliest first (rule R7). -/
  outputs : List Output
  deriving DecidableEq, Repr

/-- Why the machine stops: never. "the step function is total on every input event in every state; it
has no fault, no stuck state and no refusal of its own" (rule R316). No meaning can raise a value of
this type, because it has none; that is neither safe nor unsafe, it is the rule. -/
inductive Fault where
  deriving DecidableEq, Repr

/-- Why an instruction has no meaning here. -/
inductive Refusal where
  /-- Raised by an arm of `exec` whose instruction is not modelled; no arm raises it now. Safe. -/
  | notModelled (mnemonic : String)
  deriving DecidableEq, Repr

/-- The state of an instance right after `Reset` (rule R34): not running, assembler `Idle` and empty,
no slave, the mode at the instance's initial value. No event is waiting and none has been emitted. -/
def State.resetOf (p : Params) : State :=
  { params := p
    run := false
    asm := Assembler.empty
    errOnMissingSlave := p.errOnMissingSlave
    slaves := []
    inputs := []
    outputs := [] }

/-- The state right after reset, of the instance all vectors of 95_test_vectors.md use. DESIGN CHOICE
(log entry 2): the parameters are OPEN in the spec, and no statement rests on these values. -/
def State.reset : State := State.resetOf Params.vectors

end Sys2Proof.Machine
end

