-- ==== Sys2Proof/Machine/Flags.lean ====
section
/-! DEFINITION. The hardware has no status flags or condition codes, and no operation leaves a sticky
bit behind (rule R31). What a failing check leaves instead is an exception code; this file says which
code an error of a bank becomes. -/

namespace Sys2Proof.Machine

/-- Error translation (rule R208): `IllegalAddress` becomes 0x02 and `IllegalFunction` 0x01. -/
def excOfBankError : BankError → ExcCode
  | .illegalAddress => .illegalDataAddress
  | .illegalFunction => .illegalFunction

/-- The same errors as the results the host port returns (rules R277 and R278). Neither `HostRead` nor
`HostWrite` can meet `illegalFunction`: the host reaches both spaces (conflict C5). -/
def configErrorOfBankError : BankError → ConfigError
  | .illegalAddress => .illegalAddress
  | .illegalFunction => .illegalAddress

end Sys2Proof.Machine
end

