-- ==== Sys2Proof/Machine/Operands.lean ====
section
/-! DEFINITION. The checks a request's operands meet before any register is looked at: c2, the
payload's shape, and c3, a zero count (rules R240, R246 and R247), in that order. -/

namespace Sys2Proof.Machine

/-- The range a read names, or the exception that answers the request. -/
def readRange : ReadOperands → Except ExcCode (Word × Nat)
  | .malformed _ => .error .illegalDataValue
  | .fields start count =>
    if count.toNat = 0 then .error .illegalDataValue else .ok (start, count.toNat)

/-- The start address and the values a write stores, or the exception that answers the request. The
count of a well-formed write is the number of its values (rule R104). -/
def writeRange : WriteOperands → Except ExcCode (Word × List Word)
  | .malformed _ => .error .illegalDataValue
  | .fields start values =>
    if values.length = 0 then .error .illegalDataValue else .ok (start, values)

end Sys2Proof.Machine
end

