-- ==== Sys2Proof/Machine/Ops.lean ====
section
/-! DEFINITION. The operations the meanings share: one setter for each field, the register banks and
their access control (44_register_bank_and_host.md), and the dispatcher's routing, answering and
exceptions (42_dispatcher.md, 60_exceptions.md). -/

namespace Sys2Proof.Machine

/-! ### One field at a time -/

def State.setRun (s : State) (v : Bool) : State := { s with run := v }

def State.setAsm (s : State) (asm : Assembler) : State := { s with asm := asm }

def State.setErrOnMissingSlave (s : State) (v : Bool) : State := { s with errOnMissingSlave := v }

def State.setSlaves (s : State) (m : Memory) : State := { s with slaves := m }

def State.setInputs (s : State) (es : List Event) : State := { s with inputs := es }

/-- `emit E` (rule R11): the event follows those already emitted. -/
def State.emit (s : State) (o : Output) : State := { s with outputs := s.outputs ++ [o] }

/-! ### Blocks -/

/-- A block contains the whole range (rules R64 and R274); the sums do not wrap (rule R65). -/
def Block.contains (b : Block) (start count : Nat) : Bool :=
  decide (b.start ≤ start ∧ start + count ≤ b.start + b.length)

/-- A block shares a register address with the range (rule R272). -/
def Block.intersects (b : Block) (start length : Nat) : Bool :=
  decide (start < b.start + b.length ∧ b.start < start + length)

/-- The `count` registers from offset `o` of a block (rule R275). -/
def Block.load (b : Block) (o count : Nat) : List Word := (b.data.drop o).take count

/-- A block with the registers from offset `o` replaced by `values` (rule R276). -/
def Block.store (b : Block) (o : Nat) (values : List Word) : Block :=
  { b with data := b.data.take o ++ values ++ b.data.drop (o + values.length) }

/-- `Resolve` within one space (rule R274): the block that contains the range, and the offset. -/
def resolve : List Block → Nat → Nat → Option (Block × Nat)
  | [], _, _ => none
  | b :: bs, start, count =>
    if b.contains start count then some (b, start - b.start) else resolve bs start count

/-- The registers of a range, if one block contains it (rule R275). -/
def readBlocks (bs : List Block) (start count : Nat) : Option (List Word) :=
  match resolve bs start count with
  | some (b, o) => some (b.load o count)
  | none => none

/-- The blocks with a range replaced, if one block contains it (rules R274 and R276). -/
def writeBlocks : List Block → Nat → List Word → Option (List Block)
  | [], _, _ => none
  | b :: bs, start, values =>
    if b.contains start values.length then some (b.store (start - b.start) values :: bs)
    else
      match writeBlocks bs start values with
      | some bs' => some (b :: bs')
      | none => none

/-- A new block in its place by start address (rule R272). -/
def insertBlock (b : Block) : List Block → List Block
  | [] => [b]
  | c :: cs => if b.start < c.start then b :: c :: cs else c :: insertBlock b cs

/-! ### Banks -/

def Bank.blocks (bk : Bank) : Space → List Block
  | .holding => bk.hold
  | .input => bk.inp

def Bank.setBlocks (bk : Bank) : Space → List Block → Bank
  | .holding, bs => { bk with hold := bs }
  | .input, bs => { bk with inp := bs }

/-- `read` (rule R275). -/
def Bank.read (bk : Bank) (sp : Space) (start count : Nat) : Except BankError (List Word) :=
  match readBlocks (bk.blocks sp) start count with
  | some vs => .ok vs
  | none => .error .illegalAddress

/-- A store into either space: what the owner's write and the bus write have in common. -/
def Bank.store (bk : Bank) (sp : Space) (start : Nat) (values : List Word) :
    Except BankError Bank :=
  match writeBlocks (bk.blocks sp) start values with
  | some bs => .ok (bk.setBlocks sp bs)
  | none => .error .illegalAddress

/-- `write`, the bus side (rule R276): the input space is refused before the range is looked at. -/
def Bank.write (bk : Bank) (sp : Space) (start : Nat) (values : List Word) :
    Except BankError Bank :=
  match sp with
  | .input => .error .illegalFunction
  | .holding => bk.store .holding start values

/-! ### The slave table -/

/-- The bank of a registered slave (rule R24). -/
def Memory.bank : Memory → Nat → Option Bank
  | [], _ => none
  | (a', bk) :: m, a => if a' = a then some bk else Memory.bank m a

/-- The table with one slave's bank replaced. -/
def Memory.setBank : Memory → Nat → Bank → Memory
  | [], _, _ => []
  | (a', bk') :: m, a, bk => if a' = a then (a', bk) :: m else (a', bk') :: Memory.setBank m a bk

/-- The table with a new slave in its place by address (rule R270). -/
def Memory.insert : Memory → Nat → Bank → Memory
  | [], a, bk => [(a, bk)]
  | (a', bk') :: m, a, bk =>
    if a < a' then (a, bk) :: (a', bk') :: m else (a', bk') :: Memory.insert m a bk

/-- The table without a slave (rule R271). -/
def Memory.remove : Memory → Nat → Memory
  | [], _ => []
  | (a', bk) :: m, a => if a' = a then m else (a', bk) :: Memory.remove m a

/-- `MemRead` (rule R275). An address with no slave has no register; `MemRead` is never asked for
one. -/
def Memory.read (m : Memory) (a : Nat) (sp : Space) (start count : Nat) :
    Except BankError (List Word) :=
  match m.bank a with
  | some bk => bk.read sp start count
  | none => .error .illegalAddress

/-- `MemWrite`, the bus side (rule R276). All its checks come before the store. -/
def Memory.write (m : Memory) (a : Nat) (sp : Space) (start : Nat) (values : List Word) :
    Except BankError Memory :=
  match m.bank a with
  | some bk =>
    match bk.write sp start values with
    | .ok bk' => .ok (m.setBank a bk')
    | .error e => .error e
  | none => .error .illegalAddress

/-- The store of `HostWrite` (rule R277), into either space. -/
def Memory.hostStore (m : Memory) (a : Nat) (sp : Space) (start : Nat) (values : List Word) :
    Except BankError Memory :=
  match m.bank a with
  | some bk =>
    match bk.store sp start values with
    | .ok bk' => .ok (m.setBank a bk')
    | .error e => .error e
  | none => .error .illegalAddress

/-- One slave's share of a broadcast write (rule R204): the bank with the range replaced, or the bank
as it was if no block of its holding space contains the range. -/
def Bank.broadcastWrite (bk : Bank) (start : Nat) (values : List Word) : Bank :=
  match bk.write .holding start values with
  | .ok bk' => bk'
  | .error _ => bk

/-- A broadcast write (rule R204): every registered slave, in ascending order, each on its own. -/
def Memory.broadcastWrite : Memory → Nat → List Word → Memory
  | [], _, _ => []
  | (a, bk) :: m, start, values =>
    (a, bk.broadcastWrite start values) :: Memory.broadcastWrite m start values

/-- One register, for the claims that speak of every register: `HR[a][i]` or `IR[a][i]` (rule R11), if
it exists. -/
def Memory.reg (m : Memory) (a : Nat) (sp : Space) (i : Nat) : Option Word :=
  match m.read a sp i 1 with
  | .ok [w] => some w
  | .ok _ => none
  | .error _ => none

/-! ### The dispatcher: answering -/

/-- `a in dom(slaves)` (rule R201). -/
def State.registered (s : State) (a : Nat) : Bool := (s.slaves.bank a).isSome

/-- `INTERNAL_FAULT(a, pdu)` (rule R209). -/
def State.internalFault (s : State) (a : Byte) (pdu : List Byte) : Bool :=
  s.params.internalFault.contains (a, pdu)

/-- Steps 6 and 7 of `Dispatch` (rules R211 to R213): the frame of a response is built and handed to
the transport as one event. -/
def State.transmit (s : State) (rsp : Instr) : State := s.emit (.tx (encode rsp))

/-- Steps 5 to 7 of `Dispatch` (rules R201 and R210): `RequestHandled`, then `Tx`. -/
def State.respond (s : State) (req rsp : Instr) : State :=
  (s.emit (.requestHandled req.addr req.pdu rsp.pdu)).transmit rsp

/-- The function-code byte of an instruction: the first byte of its PDU (rule R102). -/
def functionByte (i : Instr) : Byte := i.pdu.headD 0x00#8

/-- `BuildException` (rules R107 and R208). -/
def buildException (req : Instr) (code : ExcCode) : Instr :=
  .exc req.addr (functionByte req ||| 0x80#8) code

/-- Exception entry (rule R307): the exception PDU is built and answered exactly as a normal response
is. Nothing is saved and no mode, mask or register changes; control goes nowhere. There is no return
operation (rule R308): the assembler was emptied before the dispatch began. -/
def State.takeException (s : State) (req : Instr) (code : ExcCode) : State :=
  s.respond req (buildException req code)

/-- A frame to an address with no slave (rules R205 and R206). -/
def State.missingSlave (s : State) (req : Instr) : State :=
  if s.errOnMissingSlave then s.emit (.errorHook .unknownSlave (encode req)) else s

/-- Step 2 of `Dispatch` (rules R201 and R203 to R206): broadcast, a missing slave, or `Execute`. -/
def State.route (s : State) (req : Instr) (onBroadcast onSlave : State) : State :=
  if req.addr = Config.addrBroadcast then onBroadcast
  else if s.registered req.addr.toNat then onSlave
  else s.missingSlave req

/-! ### The dispatcher: executing -/

/-- `Execute` of a read (rules R240 to R242): checks c2 to c6 in order, then the answer. -/
def State.executeRead (s : State) (req : Instr) (sp : Space) (ops : ReadOperands)
    (answer : List Word → Instr) : State :=
  match readRange ops with
  | .error code => s.takeException req code
  | .ok (start, count) =>
    match s.slaves.read req.addr.toNat sp start.toNat count with
    | .error e => s.takeException req (excOfBankError e)
    | .ok vs =>
      if Config.maxReadCount < count then s.takeException req .illegalDataValue
      else if s.internalFault req.addr req.pdu then s.takeException req .slaveDeviceFailure
      else s.respond req (answer vs)

/-- `Execute` of a write (rules R240 and R243): checks c2 to c4 and c6 in order, then the store, then
the answer that echoes start and count. -/
def State.executeWrite (s : State) (req : Instr) (ops : WriteOperands) : State :=
  match writeRange ops with
  | .error code => s.takeException req code
  | .ok (start, values) =>
    match s.slaves.write req.addr.toNat .holding start.toNat values with
    | .error e => s.takeException req (excOfBankError e)
    | .ok m =>
      if s.internalFault req.addr req.pdu then s.takeException req .slaveDeviceFailure
      else (s.setSlaves m).respond req (.wmrRsp req.addr start (BitVec.ofNat 16 values.length))

/-- `Broadcast` of a write (rule R204): a write that is malformed or empty does nothing, and nothing
is ever emitted. -/
def State.executeBroadcastWrite (s : State) (ops : WriteOperands) : State :=
  match writeRange ops with
  | .error _ => s
  | .ok (start, values) => s.setSlaves (s.slaves.broadcastWrite start.toNat values)

end Sys2Proof.Machine
end

