-- ==== Sys2Proof/Machine/Assembler.lean ====
section
/-! DEFINITION. The frame assembler (41_frame_assembler.md): what a byte does, and what a tick does
before a frame is complete. -/

namespace Sys2Proof.Machine

/-- The assembler with `b` the first byte of a frame (rule R162). -/
def Assembler.first (b : Byte) : Assembler := { state := .receiving, buf := [b], sil := 0 }

/-- `RxByte(b)`: in `Idle` the first byte of a frame (rule R162), and in `Receiving` a gap (rule
R164), then the append (rule R163), then the overflow (rule R165); ignored while stopped (rules R172
and R173). -/
def State.rxByte (s : State) (b : Byte) : State :=
  if s.run then
    match s.asm.state with
    | .idle => s.setAsm (Assembler.first b)
    | .receiving =>
      if s.params.tIC ≤ s.asm.sil then (s.emit (.asmDrop .interCharGap)).setAsm (Assembler.first b)
      else if s.asm.len < Config.maxFrame then
        s.setAsm { s.asm with buf := s.asm.buf ++ [b], sil := 0 }
      else (s.emit (.asmDrop .oversize)).setAsm Assembler.empty
  else s

/-- The tick that ends the silence: in `Receiving`, and reaching `T_IF` (rules R166 to R169). -/
def State.frameEnds (s : State) : Bool :=
  s.run && decide (s.asm.state = .receiving) && !decide (s.asm.sil + 1 < s.params.tIF)

/-- A tick that does not end the silence (rules R166, R167 and R173). -/
def State.countTick (s : State) : State :=
  if s.run then
    match s.asm.state with
    | .idle => s
    | .receiving => s.setAsm { s.asm with sil := s.asm.sil + 1 }
  else s

/-- The tick that ends the silence after fewer than 4 bytes (rule R169). -/
def State.dropShort (s : State) : State :=
  (s.emit (.asmDrop .shortFrame)).setAsm Assembler.empty

end Sys2Proof.Machine
end

