-- ==== Sys2Proof/Machine/Reads.lean ====
section
/-! DEFINITION. The two read functions. A broadcast read does nothing (rule R204). -/

namespace Sys2Proof.Machine

/-- `ReadHoldingRegisters`, function 0x03 (rule R241). -/
def execRhr (a : Byte) (ops : ReadOperands) (s : State) : Host.Outcome State Fault Refusal :=
  .next (s.route (.rhr a ops) s (s.executeRead (.rhr a ops) .holding ops (.rhrRsp a)))

/-- `ReadInputRegisters`, function 0x04 (rule R242). -/
def execRir (a : Byte) (ops : ReadOperands) (s : State) : Host.Outcome State Fault Refusal :=
  .next (s.route (.rir a ops) s (s.executeRead (.rir a ops) .input ops (.rirRsp a)))

end Sys2Proof.Machine
end

