-- ==== Sys2Proof/Machine/Rejected.lean ====
section
/-! DEFINITION. The rejected functions: to a registered slave they take the exception
`IllegalFunction`, check c1 of rule R240, whatever their payload; as a broadcast they do nothing
(rule R204). -/

namespace Sys2Proof.Machine

/-- `WriteSingleRegister`, function 0x06 (rules R112 and R244). -/
def execWsr (a : Byte) (p : List Byte) (s : State) : Host.Outcome State Fault Refusal :=
  .next (s.route (.wsr a p) s (s.takeException (.wsr a p) .illegalFunction))

/-- Every other function code (rules R113 and R245). -/
def execIllegal (a fc : Byte) (p : List Byte) (s : State) : Host.Outcome State Fault Refusal :=
  .next (s.route (.illegal a fc p) s (s.takeException (.illegal a fc p) .illegalFunction))

end Sys2Proof.Machine
end

