-- ==== Sys2Proof/Machine/Responses.lean ====
section
/-! DEFINITION. The response rows (rule R117): what the hardware does with a response is to send it,
steps 6 and 7 of `Dispatch` (rules R211 to R213). A received frame never becomes one of these: it is
always read with the request rows (DEDUCED, log entry 7). -/

namespace Sys2Proof.Machine

/-- `RHR.rsp` (rules R105 and R241). -/
def execRhrRsp (a : Byte) (values : List Word) (s : State) : Host.Outcome State Fault Refusal :=
  .next (s.transmit (.rhrRsp a values))

/-- `RIR.rsp` (rules R105 and R242). -/
def execRirRsp (a : Byte) (values : List Word) (s : State) : Host.Outcome State Fault Refusal :=
  .next (s.transmit (.rirRsp a values))

/-- `WMR.rsp` (rules R106 and R243). -/
def execWmrRsp (a : Byte) (start count : Word) (s : State) : Host.Outcome State Fault Refusal :=
  .next (s.transmit (.wmrRsp a start count))

/-- `EXC` (rules R107 and R212). -/
def execExc (a fc : Byte) (code : ExcCode) (s : State) : Host.Outcome State Fault Refusal :=
  .next (s.transmit (.exc a fc code))

end Sys2Proof.Machine
end

