-- ==== Sys2Proof/Machine/Writes.lean ====
section
/-! DEFINITION. The write function. -/

namespace Sys2Proof.Machine

/-- `WriteMultipleRegisters`, function 0x10 (rules R204 and R243). -/
def execWmr (a : Byte) (ops : WriteOperands) (s : State) : Host.Outcome State Fault Refusal :=
  .next (s.route (.wmr a ops) (s.executeBroadcastWrite ops) (s.executeWrite (.wmr a ops) ops))

end Sys2Proof.Machine
end

