-- ==== Sys2Proof/Machine/Dispatch.lean ====
section
/-! DEFINITION. One arm for each constructor of `Instr`. -/

namespace Sys2Proof.Machine

def exec (i : Instr) (s : State) : Host.Outcome State Fault Refusal :=
  match i with
  -- requests: a frame whose CRC has been checked
  | .rhr a ops => Sys2Proof.Machine.execRhr a ops s
  | .rir a ops => Sys2Proof.Machine.execRir a ops s
  | .wmr a ops => Sys2Proof.Machine.execWmr a ops s
  | .wsr a p => Sys2Proof.Machine.execWsr a p s
  | .illegal a fc p => Sys2Proof.Machine.execIllegal a fc p s
  -- responses: a frame the hardware sends
  | .rhrRsp a values => Sys2Proof.Machine.execRhrRsp a values s
  | .rirRsp a values => Sys2Proof.Machine.execRirRsp a values s
  | .wmrRsp a start count => Sys2Proof.Machine.execWmrRsp a start count s
  | .exc a fc code => Sys2Proof.Machine.execExc a fc code s

end Sys2Proof.Machine
end

