-- ==== Sys2Proof/Machine/HostPort.lean ====
section
/-! DEFINITION. The host commands (44_register_bank_and_host.md): configuration, the owner's access to
the banks, and run control. Each ends with its result as an output event; one that fails changes
nothing else (rule R303). They are accepted whether or not the instance is running (rule R283). -/

namespace Sys2Proof.Machine

def State.result (s : State) (r : HostResult) : State := s.emit (.result r)

def State.configError (s : State) (e : ConfigError) : State := s.result (.error e)

/-- `AddSlave(a)` (rule R270). -/
def State.addSlave (s : State) (a : Nat) : State :=
  if a < Config.addrMin ∨ Config.addrMax < a then s.configError .invalidAddress
  else if s.registered a then s.configError .duplicateAddress
  else (s.setSlaves (s.slaves.insert a { hold := [], inp := [] })).result .ok

/-- `RemoveSlave(a)` (rule R271). -/
def State.removeSlave (s : State) (a : Nat) : State :=
  if s.registered a then (s.setSlaves (s.slaves.remove a)).result .ok
  else s.configError .unknownSlave

/-- The block `AddBlock` declares (rule R272): every register holds `BLOCK_INIT`. -/
def newBlock (start length : Nat) : Block :=
  { start := start, data := List.replicate length Config.blockInit }

/-- `AddBlock(a, space, start, length)` (rules R272 and R273). -/
def State.addBlock (s : State) (a : Nat) (sp : Space) (start : Word) (length : Nat) : State :=
  match s.slaves.bank a with
  | none => s.configError .unknownSlave
  | some bk =>
    if length < 1 ∨ Config.spaceSize < start.toNat + length then s.configError .invalidBlock
    else if (bk.blocks sp).any (fun b => b.intersects start.toNat length) then
      s.configError .overlapError
    else
      (s.setSlaves (s.slaves.setBank a
        (bk.setBlocks sp (insertBlock (newBlock start.toNat length) (bk.blocks sp))))).result .ok

/-- `SetErrOnMissingSlave(v)` (rule R282). -/
def State.commandErrOnMissingSlave (s : State) (v : Bool) : State :=
  (s.setErrOnMissingSlave v).result .ok

/-- `HostRead(a, space, start, count)` (rule R278). -/
def State.hostRead (s : State) (a : Nat) (sp : Space) (start : Word) (count : Nat) : State :=
  if s.registered a then
    if count = 0 then s.configError .illegalAddress
    else
      match s.slaves.read a sp start.toNat count with
      | .ok vs => s.result (.value vs)
      | .error e => s.configError (configErrorOfBankError e)
  else s.configError .unknownSlave

/-- `HostWrite(a, space, start, values)` (rule R277): either space, and no hook. -/
def State.hostWrite (s : State) (a : Nat) (sp : Space) (start : Word) (values : List Word) : State :=
  if s.registered a then
    if values.length = 0 then s.configError .illegalAddress
    else
      match s.slaves.hostStore a sp start.toNat values with
      | .ok m => (s.setSlaves m).result .ok
      | .error e => s.configError (configErrorOfBankError e)
  else s.configError .unknownSlave

/-- `Start` (rule R288). -/
def State.start (s : State) : State :=
  if s.run then s.configError .alreadyRunning
  else ((s.setRun true).setAsm Assembler.empty).result .ok

/-- `Stop` (rule R289). -/
def State.stop (s : State) : State := ((s.setRun false).setAsm Assembler.empty).result .ok

/-- `Reset` (rules R34 and R340): every state variable of rule R20 at its reset value, and nothing
emitted. The parameters are no state; the events still to come and those already emitted are the
model's own (log entry 1). -/
def State.resetEvent (s : State) : State :=
  { State.resetOf s.params with inputs := s.inputs, outputs := s.outputs }

end Sys2Proof.Machine
end

