-- ==== Sys2Proof/Machine/Link.lean ====
section
/-! DEFINITION. The pipeline as one (rules R2 and R170): a tick that completes a frame has it
dispatched in the same step, with the assembler already empty; and the handling of every input event. -/

namespace Sys2Proof.Machine

/-- `Dispatch(f)` (rules R201 and R202): the CRC check, then the request the frame holds. -/
def dispatch (f : List Byte) (s : State) : Host.Outcome State Fault Refusal :=
  if verify f then exec (decodeVerified f) s else .next (s.emit (.errorHook .crcMismatch f))

/-- `Tick` (rules R166 to R169). -/
def tickEvent (s : State) : Host.Outcome State Fault Refusal :=
  if s.frameEnds then
    if s.asm.len < Config.minFrame then .next s.dropShort
    else dispatch s.asm.buf (s.setAsm Assembler.empty)
  else .next s.countTick

/-- One input event (rule R7). -/
def handle (e : Event) (s : State) : Host.Outcome State Fault Refusal :=
  match e with
  | .reset => .next s.resetEvent
  | .rxByte b => .next (s.rxByte b)
  | .tick => tickEvent s
  | .start => .next s.start
  | .stop => .next s.stop
  | .addSlave a => .next (s.addSlave a)
  | .removeSlave a => .next (s.removeSlave a)
  | .addBlock a sp start length => .next (s.addBlock a sp start length)
  | .setErrOnMissingSlave v => .next (s.commandErrOnMissingSlave v)
  | .hostRead a sp start count => .next (s.hostRead a sp start count)
  | .hostWrite a sp start values => .next (s.hostWrite a sp start values)

end Sys2Proof.Machine
end

