-- ==== Sys2Proof/Machine/Step.lean ====
section
/-! DEFINITION. One step: the next input event is taken and handled whole (rules R7 and R70). With no
event waiting nothing happens (log entry 1). -/

namespace Sys2Proof.Machine

def step (s : State) : Host.Outcome State Fault Refusal :=
  match s.inputs with
  | [] => .next s
  | e :: es => handle e (s.setInputs es)

/-- `k` steps, up to the first that does not answer a next state. -/
def steps : Nat → State → Host.Outcome State Fault Refusal
  | 0, s => .next s
  | k + 1, s =>
    match step s with
    | .next s' => steps k s'
    | .fault r => .fault r
    | .refused r => .refused r

/-- The state in which the very next step completes and dispatches the frame of a table word: running,
the frame received, one tick short of `T_IF`, and that tick the next event (log entry 9). -/
def State.withFetchWord (s : State) (nbits w : Nat) : State :=
  (((s.setRun true).setAsm
    { state := .receiving, buf := tableFrame nbits w, sil := s.params.tIF - 1 }).setInputs
    (.tick :: s.inputs))

end Sys2Proof.Machine
end

