-- ==== Sys2Proof/Machine/Device.lean ====
section
/-! DEFINITION. The device model (45_device_model.md, rules R400 to R413): host software, outside the
core and no part of its state (rules R4 and R33), kept here because it fixes the platform's register
map and is the consumer of `RequestHandled`. Each operation takes a device's own state and gives the
state after it and the host commands the device issues, which are events of the core (rule R7). -/

namespace Sys2Proof

namespace Machine

/-- The device types (rules R400 and R402). -/
inductive DeviceKind where
  | temperature
  | binarySensor
  | relay
  deriving DecidableEq, Repr

/-- The type tag (rule R402). -/
def typeTag : DeviceKind → Byte
  | .temperature => 0x22#8
  | .binarySensor => 0x59#8
  | .relay => 0xC1#8

/-- A device (rule R400): its slave's address, its type and its own state (rule R33). -/
structure Device where
  addr : Nat
  kind : DeviceKind
  /-- The channel vector; its length is the channel count, which is configurable (rule R402). -/
  channels : List Bool
  /-- The timer array of a relay, a word per timer (rule R407); other devices have none. -/
  timers : List Word
  /-- The scaled scalar of a temperature sensor, its last temperature (rules R33 and R412): the word of
  the last good value, none before the first. -/
  scaled : Option Word
  /-- `RELAY_CH8_CH9_BITS` (rule R403): true if channel 8 is bit 0 and channel 9 bit 1, false the other
  way round. -/
  ch8Low : Bool
  deriving DecidableEq, Repr

/-- How many timers a device has (rules R402 and R407). -/
def timerCount : DeviceKind → Nat
  | .temperature => 0
  | .binarySensor => 0
  | .relay => 10

/-- A device as constructed: every channel off (the fresh relay of rule R409), no temperature yet, and,
DESIGN CHOICE (log entry 10), every timer 0x0000, as the registers of its new block (rule R272). -/
def Device.fresh (addr : Nat) (kind : DeviceKind) (channelCount : Nat) (ch8Low : Bool) : Device :=
  { addr := addr
    kind := kind
    channels := List.replicate channelCount false
    timers := List.replicate (timerCount kind) Config.blockInit
    scaled := none
    ch8Low := ch8Low }

/-- Devices use addresses 3 to 247 (rule R400). -/
def Device.legal (d : Device) : Bool := decide (3 ≤ d.addr ∧ d.addr ≤ Config.addrMax)

/-- `uid = 0x800000 + (address - 3)` (rule R400). -/
def Device.uid (d : Device) : Nat := 0x800000 + (d.addr - 3)

/-- The identity block (rule R401, conflict C8): four registers, one listed value each. -/
def Device.identity (d : Device) : List Word :=
  [0x0080#16, BitVec.ofNat 16 (d.addr - 3), BitVec.ofNat 16 d.addr,
    be16 (typeTag d.kind) (BitVec.ofNat 8 d.channels.length)]

/-- The blocks of a type beside the identity block (rule R402). -/
def Device.ownBlocks (d : Device) : List Event :=
  match d.kind with
  | .temperature => [.addBlock d.addr .input 0x20#16 1]
  | .binarySensor => [.addBlock d.addr .input 0x10#16 1]
  | .relay => [.addBlock d.addr .holding 0x10#16 1, .addBlock d.addr .holding 0x20#16 (timerCount d.kind)]

/-- Construction (rules R401 and R402): the identity block, its contents, then the type's blocks.
DESIGN CHOICE (log entry 10): that the type's blocks are declared at construction, in that order. -/
def Device.construct (d : Device) : List Event :=
  [.addBlock d.addr .holding 0x0000#16 4, .hostWrite d.addr .holding 0x0000#16 d.identity] ++
    d.ownBlocks

/-- Where the state word of a device with switches is kept (rules R404 and R406). -/
def stateSpace : DeviceKind → Option Space
  | .temperature => none
  | .binarySensor => some .input
  | .relay => some .holding

/-- The register bit of a channel (rules R403 and R404): bit `15 - i` for channels 0 to 7, and bits 0
and 1 for channels 8 and 9 of a relay. The spec gives the other channels no bit. -/
def Device.channelBit (d : Device) (i : Nat) : Option Nat :=
  if i < 8 then some (15 - i)
  else
    match d.kind with
    | .relay => if i = 8 then some (if d.ch8Low then 0 else 1)
        else if i = 9 then some (if d.ch8Low then 1 else 0) else none
    | .binarySensor => none
    | .temperature => none

/-- The bit a channel contributes to the state word. -/
def Device.channelMask (d : Device) (i : Nat) (on : Bool) : Word :=
  match d.channelBit i with
  | some k => if on then 1#16 <<< k else 0#16
  | none => 0#16

/-- The state word (rules R404 and R406), from channel `i` on. -/
def Device.wordFrom (d : Device) : Nat → List Bool → Word
  | _, [] => 0#16
  | i, on :: rest => d.channelMask i on ||| d.wordFrom (i + 1) rest

def Device.stateWord (d : Device) : Word := d.wordFrom 0 d.channels

/-- `get_channel_state(channel)` (rule R405). -/
def Device.getChannelState (d : Device) (i : Nat) : Option Bool := d.channels[i]?

/-- `set_switch_state(channel, state)` (rule R405): nothing for an equal state or a channel that does
not exist (rule R408), else one register write of the whole word. DESIGN CHOICE (log entry 10): it
invokes no per-channel callback itself; rule R410 says a callback can be registered, and the only
invocation the spec describes is that of `on_register_write` (rule R409). -/
def Device.setSwitchState (d : Device) (i : Nat) (on : Bool) : Device × List Event :=
  match stateSpace d.kind, d.channels[i]? with
  | some sp, some old =>
    if old = on then (d, [])
    else
      ({ d with channels := d.channels.set i on },
        [.hostWrite d.addr sp 0x10#16 [({ d with channels := d.channels.set i on }).stateWord]])
  | _, _ => (d, [])

/-- The timer word (rule R407): bit 15 the initial state, bits 14 to 0 the half-seconds, truncated. For
half-seconds above 32767 the mask is the spec's own guess (log entry 10). -/
def timerWord (initialState : Bool) (seconds : Rat) : Word :=
  (if initialState then 0x8000#16 else 0x0000#16) |||
    (BitVec.ofInt 16 (seconds * 2).floor &&& 0x7FFF#16)

/-- Whether a device has timer `i`: one in its timer array, of a channel it has (rules R402, R407 and
R408). DESIGN CHOICE (log entry 10): where the channel count is not the 10 of the timer block, both
bounds apply. -/
def Device.hasTimer (d : Device) (i : Nat) : Bool :=
  decide (i < d.channels.length ∧ i < d.timers.length)

/-- `set_timer(channel, initial_state, timeout_seconds)` (rule R407): the timer array's entry and one
register write of it, and nothing for a timer that does not exist (rule R408). -/
def Device.setTimer (d : Device) (i : Nat) (initialState : Bool) (seconds : Rat) :
    Device × List Event :=
  if d.hasTimer i then
    ({ d with timers := d.timers.set i (timerWord initialState seconds) },
      [.hostWrite d.addr .holding (BitVec.ofNat 16 (0x20 + i)) [timerWord initialState seconds]])
  else (d, [])

/-- What `get_timer` comes to. -/
inductive TimerReading where
  /-- No such timer (rule R408). -/
  | noTimer
  /-- The entry of the device's timer array. -/
  | held (word : Word)
  /-- The register, by this host command. -/
  | register (read : Event)
  deriving DecidableEq, Repr

/-- `get_timer(channel)` (rules R407 and R408), which "reads it back": the spec does not say whether
from the device's timer array or from the register, which a master may have overwritten, so the model
leaves that free (log entry 10). -/
def Device.getTimer (d : Device) (i : Nat) : TimerReading :=
  if d.hasTimer i then
    if Config.timerReadsRegister then
      .register (.hostRead d.addr .holding (BitVec.ofNat 16 (0x20 + i)) 1)
    else .held (d.timers.getD i Config.blockInit)
  else .noTimer

/-- What a state word says of a channel: its bit, or its old state if the word has no bit for it. -/
def Device.channelOfWord (d : Device) (w : Word) (i : Nat) (old : Bool) : Bool :=
  match d.channelBit i with
  | some k => w.getLsbD k
  | none => old

/-- The channel vector a state word stands for, from channel `i` on. -/
def Device.channelsOfWord (d : Device) (w : Word) : Nat → List Bool → List Bool
  | _, [] => []
  | i, old :: rest => d.channelOfWord w i old :: d.channelsOfWord w (i + 1) rest

/-- The channels that differ, each once with its new state, from channel `i` on (rules R409 and R410).
DESIGN CHOICE (log entry 10): they are listed, and their callbacks so invoked, by rising channel number;
the spec gives no order. -/
def changedChannels : Nat → List Bool → List Bool → List (Nat × Bool)
  | i, old :: olds, new :: news =>
    if old = new then changedChannels (i + 1) olds news
    else (i, new) :: changedChannels (i + 1) olds news
  | _, [], _ => []
  | _, _ :: _, [] => []

/-- `on_register_write(addr, values)` of a relay (rule R409): register 0x10 updates the channel vector,
and each changed channel's callback is invoked once. DESIGN CHOICE (log entry 10): a device that is no
relay ignores it, on which the source is silent (91_not_in_source.md N37). -/
def Device.onRegisterWrite (d : Device) (addr : Nat) (values : List Word) :
    Device × List (Nat × Bool) :=
  match d.kind, values with
  | .relay, w :: _ =>
    if addr = 0x10 then
      ({ d with channels := d.channelsOfWord w 0 d.channels },
        changedChannels 0 d.channels (d.channelsOfWord w 0 d.channels))
    else (d, [])
  | _, _ => (d, [])

/-- What a relay does with `RequestHandled` (rule R409): for its own address, if the response says the
write succeeded, `on_register_write` with the request's start address and values. DESIGN CHOICE (log
entry 10): what a device that is no relay does, on which the source is silent, is nothing. -/
def Device.onRequestHandled (d : Device) (slaveId : Byte) (requestPdu responsePdu : List Byte) :
    Device × List (Nat × Bool) :=
  if slaveId.toNat = d.addr ∧ responsePdu.headD 0x00#8 = fcWriteMultiple then
    match decodeWriteOperands requestPdu.tail with
    | .fields start values => d.onRegisterWrite start.toNat values
    | .malformed _ => (d, [])
  else (d, [])

/-- `round(x)` to the nearest integer, ties as the open parameter says (rule R412). -/
def roundTenths (x : Rat) : Int :=
  if x - x.floor < 1 / 2 then x.floor
  else if 1 / 2 < x - x.floor then x.floor + 1
  else if Config.tempTieUp x then x.floor + 1 else x.floor

/-- The register word of a temperature (rule R412): tenths of a degree in two's complement. The range
of the rule, -3276.8 to 3276.7, is one of temperatures, so a temperature just outside it that still
rounds into 16 bits (such as 3276.72) takes the free value too (DEDUCED, log entry 10). -/
def temperatureWord (celsius : Rat) : Option Word :=
  if -32768 / 10 ≤ celsius ∧ celsius ≤ 32767 / 10 then
    some (BitVec.ofInt 16 (roundTenths (celsius * 10)))
  else Config.tempOutOfRange celsius

/-- A state change of the sensor's feed (rule R412): the word becomes the last good value and there is
one register write of it; a value that is no number changes nothing. -/
def Device.temperatureUpdate (d : Device) (celsius : Option Rat) : Device × List Event :=
  match d.kind, celsius with
  | .temperature, some c =>
    match temperatureWord c with
    | some w => ({ d with scaled := some w }, [.hostWrite d.addr .input 0x20#16 [w]])
    | none => (d, [])
  | _, _ => (d, [])

end Machine

end Sys2Proof
end

