-- ==== Sys2Proof/Safety.lean ====
section
/-! DEFINITION. What a sound state is, in the terms claims use: a legal instance, an assembler that
obeys rules R26 and R27, and register banks in canonical form (rules R23 and R24). -/

namespace Sys2Proof.Machine

/-- Rules R26 and R27: `Idle` if and only if empty, at most 256 bytes, and a silence below `T_IF` while
receiving. -/
def Assembler.sound (p : Params) (asm : Assembler) : Bool :=
  match asm.state with
  | .idle => decide (asm.buf = [] ∧ asm.sil = 0)
  | .receiving => decide (asm.buf ≠ [] ∧ asm.len ≤ Config.maxFrame ∧ asm.sil < p.tIF)

/-- The invariant of the machine: it holds at reset of every legal instance, and every step keeps it. -/
def State.sound (s : State) : Bool :=
  s.params.legal && s.asm.sound s.params && s.slaves.wf

end Sys2Proof.Machine
end

