-- ==== Sys2Proof/WellFormed.lean ====
section
/-! DEFINITION. Which terms of `Instr` are the mnemonic line of a frame (rules R100 to R107 and R246):
the frame fits 256 bytes, a payload called malformed does not have its function's shape, an
`illegal` function code is none of the four named ones, and a response is one the hardware can send. -/

namespace Sys2Proof

/-- The shape of a read request's payload (rule R246): four bytes. -/
def readShape (p : List Byte) : Bool := decide (p.length = 4)

/-- `WellFormedWrite` (rule R246), in the words of that rule and over plain numbers: at least five
bytes, the fifth twice the number the third and fourth form, and that many bytes after it. -/
def writeShape (p : List Byte) : Bool :=
  decide (5 ≤ p.length ∧
    (p.getD 4 0).toNat = 2 * ((p.getD 2 0).toNat * 256 + (p.getD 3 0).toNat) ∧
    p.length = 5 + (p.getD 4 0).toNat)

/-- A payload fits a frame of 256 bytes (rules R101 and R117). -/
def payloadFits (p : List Byte) : Bool := decide (p.length ≤ Config.maxPayload)

def ReadOperands.wellFormed : ReadOperands → Bool
  | .fields _ _ => true
  | .malformed p => payloadFits p && !readShape p

def WriteOperands.wellFormed : WriteOperands → Bool
  | .fields _ values => decide (values.length ≤ Config.maxWriteCount)
  | .malformed p => payloadFits p && !writeShape p

/-- A response carries one to 125 values (rules R66 and R109). -/
def valuesFit (values : List Word) : Bool :=
  decide (1 ≤ values.length ∧ values.length ≤ Config.maxReadCount)

/-- The term stands for exactly one frame (rule R116). -/
def Instr.wellFormed : Instr → Bool
  | .rhr _ ops => ops.wellFormed
  | .rir _ ops => ops.wellFormed
  | .wmr _ ops => ops.wellFormed
  | .wsr _ p => payloadFits p
  | .illegal _ fc p =>
    payloadFits p && decide (fc ≠ 0x03#8 ∧ fc ≠ 0x04#8 ∧ fc ≠ 0x10#8 ∧ fc ≠ 0x06#8)
  | .rhrRsp _ values => valuesFit values
  | .rirRsp _ values => valuesFit values
  | .wmrRsp _ _ count => decide (1 ≤ count.toNat ∧ count.toNat ≤ Config.maxWriteCount)
  | .exc _ fc _ => fc.getLsbD 7

end Sys2Proof
end

