-- ==== Sys2Proof/Certificates/Slice0/Obligations.lean ====
section
/-! DEFINITION. The statements for the provers, in the words of the spec's rules. Each next state is
written out as the state before with the fields that change, so each statement is its own frame. -/

namespace Sys2Proof.Claims

open Sys2Proof.Machine

/-- `s` after emitting `os` in order, and nothing else. -/
def emits (s : State) (os : List Output) : State := { s with outputs := s.outputs ++ os }

/-- `s` after a request PDU has been answered with a response PDU: `RequestHandled`, then `Tx` of the
framed response, and nothing else (rules R201, R210 and R211). -/
def answered (s : State) (a : Byte) (req rsp : List Byte) : State :=
  emits s [.requestHandled a req rsp, .tx (crcAppend (a :: rsp))]

/-- The block contains the whole range (rule R64); the sums are integers (rule R65). -/
def covers (b : Block) (start count : Nat) : Bool :=
  decide (b.start ≤ start ∧ start + count ≤ b.start + b.length)

/-- One block of the space of slave `a` contains the whole range (rule R64). -/
def contained (m : Memory) (a : Nat) (sp : Space) (start count : Nat) : Bool :=
  match m.bank a with
  | some bk => (bk.blocks sp).any (fun b => covers b start count)
  | none => false

/-- Where the blocks of a table lie, less what they hold. -/
def layout (m : Memory) : List (Nat × List (Nat × Nat) × List (Nat × Nat)) :=
  m.map (fun e => (e.1, e.2.hold.map (fun b => (b.start, b.length)),
    e.2.inp.map (fun b => (b.start, b.length))))

/-- `m'` is `m` with the registers of one range of one space of one slave replaced by `values`: each
of them reads as its new value, every other register of every slave and space reads as before, and
no block comes, goes or moves. -/
def written (m m' : Memory) (a : Nat) (sp : Space) (start : Nat) (values : List Word) : Prop :=
  layout m' = layout m ∧
  ∀ a' sp' i, m'.reg a' sp' i =
    if a' = a ∧ sp' = sp ∧ start ≤ i ∧ i < start + values.length then values[i - start]?
    else m.reg a' sp' i

/-- A tick is the next event and ends the silence after the bytes received so far (rules R168 and
R169). -/
def completes (s : State) (es : List Event) : Prop :=
  s.inputs = .tick :: es ∧ s.run = true ∧ s.asm.state = .receiving ∧ s.asm.sil + 1 = s.params.tIF

/-- The state in which a completed frame is dispatched: `Idle` and empty (rules R168 and R170). -/
def ready (s : State) (es : List Event) : State :=
  { s with asm := { state := .idle, buf := [], sil := 0 }, inputs := es }

/-- The PDU of a read request (rule R103). -/
def readPdu (fc : Byte) (start count : Word) : List Byte := [fc, hi start, lo start, hi count, lo count]

/-- The PDU of a write request (rule R104). -/
def writePdu (start : Word) (values : List Word) : List Byte :=
  [0x10#8, hi start, lo start, hi (BitVec.ofNat 16 values.length), lo (BitVec.ofNat 16 values.length),
    BitVec.ofNat 8 (2 * values.length)] ++ wordBytes values

/-- The PDU of a write response (rule R106). -/
def writeRspPdu (start count : Word) : List Byte := [0x10#8, hi start, lo start, hi count, lo count]

/-- A read of `sp` by the instruction `mk`, function `fc`, succeeds: addressed to a registered
slave, of 1 to 125 registers that one block contains and with the oracle silent, it is answered with
the words of that range, the response frame is `5 + 2 * count` bytes long, and nothing else changes.
-/
def readSucceeds (mk : Byte → ReadOperands → Instr) (fc : Byte) (sp : Space) : Prop :=
  ∀ (s : State) (a : Byte) (start count : Word) (bk : Bank) (b : Block), s.slaves.wf = true →
    a ≠ 0x00#8 → s.slaves.bank a.toNat = some bk → 1 ≤ count.toNat → count.toNat ≤ 125 →
    b ∈ bk.blocks sp → covers b start.toNat count.toNat = true →
    (a, readPdu fc start count) ∉ s.params.internalFault →
    ∃ rsp, rsp = fc :: BitVec.ofNat 8 (2 * count.toNat) ::
        wordBytes ((b.data.drop (start.toNat - b.start)).take count.toNat) ∧
      (crcAppend (a :: rsp)).length = 5 + 2 * count.toNat ∧
      exec (mk a (.fields start count)) s = .next (answered s a (readPdu fc start count) rsp)

/-- A read of `sp` by the instruction `mk`, function `fc`, addressed to a registered slave fails: the
exception that answers each of the checks c2 to c6, in their order, and that nothing else changes. -/
def readFails (mk : Byte → ReadOperands → Instr) (fc : Byte) (sp : Space) : Prop :=
  ∀ (s : State) (a : Byte), s.slaves.wf = true → a ≠ 0x00#8 → s.registered a.toNat = true →
    (∀ p, exec (mk a (.malformed p)) s = .next (answered s a (fc :: p) [fc ||| 0x80#8, 0x03#8])) ∧
    (∀ start count : Word,
      (count.toNat = 0 →
        exec (mk a (.fields start count)) s =
          .next (answered s a (readPdu fc start count) [fc ||| 0x80#8, 0x03#8])) ∧
      (count.toNat ≠ 0 → contained s.slaves a.toNat sp start.toNat count.toNat = false →
        exec (mk a (.fields start count)) s =
          .next (answered s a (readPdu fc start count) [fc ||| 0x80#8, 0x02#8])) ∧
      (125 < count.toNat → contained s.slaves a.toNat sp start.toNat count.toNat = true →
        exec (mk a (.fields start count)) s =
          .next (answered s a (readPdu fc start count) [fc ||| 0x80#8, 0x03#8])) ∧
      (1 ≤ count.toNat → count.toNat ≤ 125 →
        contained s.slaves a.toNat sp start.toNat count.toNat = true →
        (a, readPdu fc start count) ∈ s.params.internalFault →
        exec (mk a (.fields start count)) s =
          .next (answered s a (readPdu fc start count) [fc ||| 0x80#8, 0x04#8])))

/-- Each byte preceded by a number of ticks: the events of a frame in reception. -/
def gapped : List (Nat × Byte) → List Event
  | [] => []
  | (g, b) :: rest => List.replicate g .tick ++ .rxByte b :: gapped rest

/-- The ten channels of a relay that a state word stands for, bit by bit (rule R403): channels 0 to 7
from bits 15 down to 8, then channels 8 and 9 from bits 0 and 1, or from 1 and 0. -/
def relayChannels (ch8Low : Bool) (w : Word) : List Bool :=
  [w.getLsbD 15, w.getLsbD 14, w.getLsbD 13, w.getLsbD 12, w.getLsbD 11, w.getLsbD 10, w.getLsbD 9,
    w.getLsbD 8] ++ if ch8Low then [w.getLsbD 0, w.getLsbD 1] else [w.getLsbD 1, w.getLsbD 0]

/-- The errors each host command can return (rule R303). -/
def errorsOf : Event → List ConfigError
  | .addSlave _ => [.duplicateAddress, .invalidAddress]
  | .removeSlave _ => [.unknownSlave]
  | .addBlock _ _ _ _ => [.unknownSlave, .overlapError, .invalidBlock]
  | .hostRead _ _ _ _ => [.unknownSlave, .illegalAddress]
  | .hostWrite _ _ _ _ => [.unknownSlave, .illegalAddress]
  | .start => [.alreadyRunning]
  | .reset => []
  | .rxByte _ => []
  | .tick => []
  | .stop => []
  | .setErrOnMissingSlave _ => []

end Sys2Proof.Claims

open Sys2Proof Sys2Proof.Machine Sys2Proof.Claims

/-! ### Encoding -/

/-- Frames written out byte by byte from rules R103 to R107 (vectors F1, F12, F19, F29, F30 and the
responses of F1, F12, F17 and F6) decode to the instructions they stand for. -/
def Obligations.WordsWrittenOutDecode : Prop :=
  decode [0x05, 0x03, 0x00, 0x00, 0x00, 0x04, 0x45, 0x8D] = .ok (.rhr 0x05 (.fields 0x0000 0x0004)) ∧
  decode [0x07, 0x04, 0x00, 0x20, 0x00, 0x01, 0x30, 0x66] = .ok (.rir 0x07 (.fields 0x0020 0x0001)) ∧
  decode [0x09, 0x10, 0x00, 0x20, 0x00, 0x02, 0x04, 0x80, 0x14, 0x00, 0x02, 0x33, 0xD2] =
    .ok (.wmr 0x09 (.fields 0x0020 [0x8014, 0x0002])) ∧
  decode [0x09, 0x06, 0x00, 0x10, 0x80, 0x00, 0xE8, 0x87] = .ok (.wsr 0x09 [0x00, 0x10, 0x80, 0x00]) ∧
  decode [0x05, 0x01, 0x00, 0x00, 0x00, 0x08, 0x3C, 0x48] =
    .ok (.illegal 0x05 0x01 [0x00, 0x00, 0x00, 0x08]) ∧
  decodeResponse [0x05, 0x03, 0x08, 0x00, 0x80, 0x00, 0x02, 0x00, 0x05, 0x22, 0x01, 0xB1, 0x8E] =
    .ok (.rhrRsp 0x05 [0x0080, 0x0002, 0x0005, 0x2201]) ∧
  decodeResponse [0x07, 0x04, 0x02, 0x00, 0xEB, 0x71, 0x7F] = .ok (.rirRsp 0x07 [0x00EB]) ∧
  decodeResponse [0x09, 0x10, 0x00, 0x10, 0x00, 0x01, 0x01, 0x44] = .ok (.wmrRsp 0x09 0x0010 0x0001) ∧
  decodeResponse [0x05, 0x83, 0x02, 0x81, 0x30] = .ok (.exc 0x05 0x83 .illegalDataAddress)

/-- Decoding the frame of a well-formed instruction gives it back, requests with the request rows and
responses with the response rows (rules R103 to R107, R111 and R117). -/
def Obligations.DecodeOfEncodeIsTheInstruction : Prop :=
  ∀ i : Instr, i.wellFormed = true →
    (i.isRequest = true → decode (encode i) = .ok i) ∧
    (i.isRequest = false → decodeResponse (encode i) = .ok i)

/-- Whatever the decoder accepts is a well-formed instruction whose frame is, byte for byte, the one
read: no bit of a frame is dropped, and no two frames decode alike. -/
def Obligations.EncodeOfDecodeIsTheFrame : Prop :=
  ∀ (f : List Byte) (i : Instr),
    (decode f = .ok i → i.wellFormed = true ∧ i.isRequest = true ∧ encode i = f) ∧
    (decodeResponse f = .ok i → i.wellFormed = true ∧ i.isRequest = false ∧ encode i = f)

/-- 30_encoding.md section 1 (the greatest length is the spec's own decision D7): a byte sequence is
a request exactly if its length is 4 to 256 and its CRC matches; the PDU is then three bytes
shorter, 1 to 253, and every frame the machine transmits has a PDU of at most 252 bytes. -/
def Obligations.FramesAreBoundedAndChecked : Prop :=
  (∀ f : List Byte,
    (∃ i, decode f = .ok i) ↔ 4 ≤ f.length ∧ f.length ≤ 256 ∧ verify f = true) ∧
  (∀ (f : List Byte) (i : Instr), decode f = .ok i →
    i.pdu.length = f.length - 3 ∧ 1 ≤ i.pdu.length ∧ i.pdu.length ≤ 253) ∧
  (∀ (s t : State) (f : List Byte), step s = .next t → Output.tx f ∈ t.outputs →
    Output.tx f ∉ s.outputs → f.length - 3 ≤ 252)

/-- Rule R111: every function-code byte is decoded, and to the operation the map gives it; any code
but 0x03, 0x04 and 0x10, sent to a registered slave, is answered with exception 0x01. -/
def Obligations.EveryFunctionCodeIsDecoded : Prop :=
  ∀ (a fc : Byte) (p : List Byte), p.length ≤ 252 →
    (fc = 0x03#8 → ∃ ops, decode (crcAppend (a :: fc :: p)) = .ok (.rhr a ops)) ∧
    (fc = 0x04#8 → ∃ ops, decode (crcAppend (a :: fc :: p)) = .ok (.rir a ops)) ∧
    (fc = 0x10#8 → ∃ ops, decode (crcAppend (a :: fc :: p)) = .ok (.wmr a ops)) ∧
    (fc = 0x06#8 → decode (crcAppend (a :: fc :: p)) = .ok (.wsr a p)) ∧
    (fc ≠ 0x03#8 → fc ≠ 0x04#8 → fc ≠ 0x10#8 → fc ≠ 0x06#8 →
      decode (crcAppend (a :: fc :: p)) = .ok (.illegal a fc p)) ∧
    (fc ≠ 0x03#8 → fc ≠ 0x04#8 → fc ≠ 0x10#8 → ∀ s : State, a ≠ 0x00#8 →
      s.registered a.toNat = true → ∃ i, decode (crcAppend (a :: fc :: p)) = .ok i ∧
        exec i s = .next (answered s a (fc :: p) [fc ||| 0x80#8, 0x01#8]))

/-! ### The CRC generator -/

/-- Rule R145: a sequence with its CRC appended verifies. -/
def Obligations.AppendedCrcVerifies : Prop := ∀ bs : List Byte, verify (crcAppend bs) = true

/-- From rules R141 to R144: changing any one byte of a frame that verifies, in one bit or in several,
makes it fail. Rule R146 hedges the single-bit case as the source does and leaves the certainty to be
proved from these rules. -/
def Obligations.OneByteCorruptionIsDetected : Prop :=
  ∀ (f : List Byte) (k : Nat) (b : Byte), verify f = true → k < f.length → f[k]? ≠ some b →
    verify (f.set k b) = false

/-- Rule R147: the source's test vector, and its two bytes on the wire. -/
def Obligations.SourceCrcVector : Prop :=
  crc16 [0x01, 0x03, 0x00, 0x00, 0x00, 0x01] = 0x0A84#16 ∧
  crcAppend [0x01, 0x03, 0x00, 0x00, 0x00, 0x01] = [0x01, 0x03, 0x00, 0x00, 0x00, 0x01, 0x84, 0x0A]

/-- The CRC of a sequence with its own CRC appended is zero (vector K12). -/
def Obligations.CrcOfFramedSequenceIsZero : Prop :=
  ∀ bs : List Byte, crc16 (crcAppend bs) = 0x0000#16

/-! ### The register banks -/

/-- Rule R274: `Resolve` finds the block that contains the range and the offset into it, and fails
exactly if there is none; at most one block can match. -/
def Obligations.ResolveFindsTheOneContainingBlock : Prop :=
  ∀ (bs : List Block) (start count : Nat), blocksWf 0 bs = true → 1 ≤ count →
    (∀ b o, resolve bs start count = some (b, o) ↔
      b ∈ bs ∧ covers b start count = true ∧ o = start - b.start) ∧
    (resolve bs start count = none ↔ ∀ b ∈ bs, covers b start count = false) ∧
    (∀ b ∈ bs, ∀ b' ∈ bs, covers b start count = true → covers b' start count = true → b = b')

/-- Rule R275: `MemRead` of either space gives the words of the range, or fails with `IllegalAddress`
if no one block contains it. -/
def Obligations.MemReadGivesTheRange : Prop :=
  ∀ (m : Memory) (a : Nat) (bk : Bank) (sp : Space) (start count : Nat),
    m.wf = true → m.bank a = some bk → 1 ≤ count →
    (∀ b ∈ bk.blocks sp, covers b start count = true →
      m.read a sp start count = .ok ((b.data.drop (start - b.start)).take count)) ∧
    (contained m a sp start count = false → m.read a sp start count = .error .illegalAddress)

/-- Rule R276: a bus-side write to the input space fails with `IllegalFunction` whatever the range,
one to a range no holding block contains fails with `IllegalAddress`, and any other replaces exactly
the words of the range. -/
def Obligations.MemWriteStoresAllOrNothing : Prop :=
  ∀ (m : Memory) (a : Nat) (bk : Bank) (start : Nat) (values : List Word),
    m.wf = true → m.bank a = some bk → values ≠ [] →
    (m.write a .input start values = .error .illegalFunction) ∧
    (contained m a .holding start values.length = false →
      m.write a .holding start values = .error .illegalAddress) ∧
    (contained m a .holding start values.length = true →
      ∃ m', m.write a .holding start values = .ok m' ∧ written m m' a .holding start values)

/-- Rule R281: a range written reads back as written: `MemWrite` then `MemRead` on the holding space,
and `HostWrite` then `HostRead` or `MemRead` on either. -/
def Obligations.WriteThenReadRoundTrip : Prop :=
  (∀ (m : Memory) (a start : Nat) (values : List Word), m.wf = true → values ≠ [] →
    contained m a .holding start values.length = true →
    ∃ m', m.write a .holding start values = .ok m' ∧
      m'.read a .holding start values.length = .ok values) ∧
  (∀ (s : State) (a : Nat) (sp : Space) (start : Word) (values : List Word) (es : List Event),
    s.slaves.wf = true → values ≠ [] →
    contained s.slaves a sp start.toNat values.length = true →
    s.inputs = .hostWrite a sp start values :: .hostRead a sp start values.length :: es →
    ∃ m', steps 2 s = .next (emits { s with inputs := es, slaves := m' }
        [.result .ok, .result (.value values)]) ∧
      m'.read a sp start.toNat values.length = .ok values)

/-- Sums do not wrap (20_memory.md section 3, the spec's own decision D14), so a range that would pass
address 65535 is in no block, and every request that names one is answered with exception 0x02. -/
def Obligations.RangesPastTheLastAddressFail : Prop :=
  ∀ (s : State) (a : Byte) (start : Word), s.slaves.wf = true → a ≠ 0x00#8 →
    s.registered a.toNat = true →
    (∀ count : Word, count.toNat ≠ 0 → 65536 < start.toNat + count.toNat →
      exec (.rhr a (.fields start count)) s =
        .next (answered s a (readPdu 0x03#8 start count) [0x83#8, 0x02#8]) ∧
      exec (.rir a (.fields start count)) s =
        .next (answered s a (readPdu 0x04#8 start count) [0x84#8, 0x02#8])) ∧
    (∀ values : List Word, values ≠ [] → 65536 < start.toNat + values.length →
      exec (.wmr a (.fields start values)) s =
        .next (answered s a (writePdu start values) [0x90#8, 0x02#8]))

/-! ### The frame assembler -/

/-- Rules R162 and R163: a byte in `Idle` starts a frame, with no silence required before it, and
one in `Receiving`, after a gap shorter than `T_IC` and with fewer than 256 bytes buffered, is
appended. -/
def Obligations.BytesStartAndExtendAFrame : Prop :=
  ∀ (s : State) (b : Byte) (es : List Event), s.run = true → s.inputs = .rxByte b :: es →
    (s.asm.state = .idle →
      step s = .next { s with asm := { state := .receiving, buf := [b], sil := 0 }, inputs := es }) ∧
    (s.asm.state = .receiving → s.asm.sil < s.params.tIC → s.asm.len < 256 →
      step s = .next
        { s with asm := { state := .receiving, buf := s.asm.buf ++ [b], sil := 0 }, inputs := es })

/-- A byte after a gap, and the 257th byte (41_frame_assembler.md section 2, the spec's own decisions
D3, D5 and D33): the gap is tested first. In a sound state a gap is shorter than `T_IF`, so with
`T_IC = T_IF` the gap rule never fires. -/
def Obligations.GapsAndOverflowsDropTheFrame : Prop :=
  (∀ (s : State) (b : Byte) (es : List Event), s.run = true → s.inputs = .rxByte b :: es →
    (s.asm.state = .receiving → s.params.tIC ≤ s.asm.sil →
      step s = .next (emits
        { s with asm := { state := .receiving, buf := [b], sil := 0 }, inputs := es }
        [.asmDrop .interCharGap])) ∧
    (s.asm.state = .receiving → s.asm.sil < s.params.tIC → s.asm.len = 256 →
      step s = .next (emits
        { s with asm := { state := .idle, buf := [], sil := 0 }, inputs := es }
        [.asmDrop .oversize]))) ∧
  (∀ s : State, s.sound = true → s.asm.state = .receiving → s.params.tIC = s.params.tIF →
    s.asm.sil < s.params.tIC)

/-- What a tick does in `Idle`, in `Receiving` before the silence reaches `T_IF`, and when it does
after fewer than 4 bytes (41_frame_assembler.md section 3, the spec's own decisions D2 and D4). -/
def Obligations.TickTransitions : Prop :=
  ∀ (s : State) (es : List Event), s.run = true → s.inputs = .tick :: es →
    (s.asm.state = .idle → step s = .next { s with inputs := es }) ∧
    (s.asm.state = .receiving → s.asm.sil + 1 < s.params.tIF →
      step s = .next { s with asm := { s.asm with sil := s.asm.sil + 1 }, inputs := es }) ∧
    (s.asm.state = .receiving → s.asm.sil + 1 = s.params.tIF → s.asm.len < 4 →
      step s = .next (emits
        { s with asm := { state := .idle, buf := [], sil := 0 }, inputs := es }
        [.asmDrop .shortFrame]))

/-- While not running, bytes and ticks change nothing and emit nothing, and `Stop` and `Start` both
leave the assembler in `Idle`, empty (41_frame_assembler.md section 4, the spec's own decision D36).
-/
def Obligations.LinkIgnoredWhileStopped : Prop :=
  ∀ (s : State) (es : List Event),
    (∀ b, s.run = false → s.inputs = .rxByte b :: es → step s = .next { s with inputs := es }) ∧
    (s.run = false → s.inputs = .tick :: es → step s = .next { s with inputs := es }) ∧
    (s.inputs = .stop :: es → ∃ t, step s = .next t ∧
      t.asm = { state := .idle, buf := [], sil := 0 }) ∧
    (s.run = false → s.inputs = .start :: es → ∃ t, step s = .next t ∧
      t.asm = { state := .idle, buf := [], sil := 0 })

/-- Rules R168, R170 and R174 together: from `Idle`, a frame of 4 to 256 bytes received with gaps
shorter than `T_IC`, in whatever chunks, followed by `T_IF` ticks of silence, is dispatched once,
whole and in order, on the last of those ticks: one tick before, the whole frame is still in the
assembler and nothing has been done or emitted. -/
def Obligations.GappedFrameIsDispatchedOnce : Prop :=
  ∀ (s : State) (gs : List (Nat × Byte)) (es : List Event),
    s.params.legal = true → s.run = true → s.asm = { state := .idle, buf := [], sil := 0 } →
    4 ≤ gs.length → gs.length ≤ 256 → (∀ x ∈ gs, x.1 < s.params.tIC) →
    s.inputs = gapped gs ++ List.replicate s.params.tIF .tick ++ es →
    (steps ((gapped gs).length + s.params.tIF - 1) s =
      .next { s with
        asm := { state := .receiving, buf := gs.map Prod.snd, sil := s.params.tIF - 1 }
        inputs := .tick :: es }) ∧
    (∀ i, decode (gs.map Prod.snd) = .ok i →
      steps ((gapped gs).length + s.params.tIF) s = exec i { s with inputs := es }) ∧
    (verify (gs.map Prod.snd) = false →
      steps ((gapped gs).length + s.params.tIF) s =
        .next (emits { s with inputs := es } [.errorHook .crcMismatch (gs.map Prod.snd)]))

/-! ### The dispatcher -/

/-- A step runs the decoded instruction. Rule R168: a tick that ends the silence after at least 4
bytes empties the assembler and dispatches exactly the bytes received, in the same step; and when
those bytes decode to `i`, the step is `exec i` in that state. -/
def Obligations.StepRunsTheDecodedRequest : Prop :=
  ∀ (s : State) (es : List Event), completes s es → 4 ≤ s.asm.len →
    step s = dispatch s.asm.buf (ready s es) ∧
    ∀ i, decode s.asm.buf = .ok i → step s = exec i (ready s es)

/-- The model's own `withFetchWord` (log entry 9): the very next step runs the instruction that
`decodeTableWord` reads from the same word. -/
def Obligations.FetchedTableWordRunsNext : Prop :=
  ∀ (s : State) (nbits w : Nat) (i : Instr), decodeTableWord nbits w = some i →
    step (s.withFetchWord nbits w) = exec i (ready { s with run := true } s.inputs)

/-- Rule R202: a completed frame that fails the CRC check, whatever its address, raises
`ErrorHook(CrcMismatch)` with the frame as received and has no other effect. -/
def Obligations.CorruptFrameOnlyRaisesTheHook : Prop :=
  ∀ (s : State) (es : List Event), completes s es → 4 ≤ s.asm.len → verify s.asm.buf = false →
    step s = .next (emits (ready s es) [.errorHook .crcMismatch s.asm.buf])

/-- Rule R205: with the mode off, a completed frame to an address with no slave, whatever the request,
changes nothing and emits nothing. -/
def Obligations.ForeignFramesAreIgnored : Prop :=
  ∀ (s : State) (es : List Event) (i : Instr), completes s es → decode s.asm.buf = .ok i →
    i.addr ≠ 0x00#8 → s.registered i.addr.toNat = false → s.errOnMissingSlave = false →
    step s = .next (ready s es)

/-- With the mode on, such a frame raises `ErrorHook(UnknownSlave)` with the frame as received, and
nothing else happens (42_dispatcher.md section 1, the spec's own decision D18). Only addresses 1 to
247 are ever registered (decision D16), so a frame to 248 to 255 is always such a frame. -/
def Obligations.UnknownSlavesOnlyRaiseTheHook : Prop :=
  (∀ (s : State) (es : List Event) (i : Instr), completes s es → decode s.asm.buf = .ok i →
    i.addr ≠ 0x00#8 → s.registered i.addr.toNat = false → s.errOnMissingSlave = true →
    step s = .next (emits (ready s es) [.errorHook .unknownSlave s.asm.buf])) ∧
  (∀ (s : State) (a : Nat), s.slaves.wf = true → s.registered a = true → 1 ≤ a ∧ a ≤ 247)

/-- Broadcast (42_dispatcher.md section 1, the spec's own decision D15): it emits nothing. A
well-formed, non-empty write is stored in every slave whose holding space contains the range, each
on its own, whatever the oracle would say, and leaves every other register as it was; any other
broadcast changes nothing. -/
def Obligations.BroadcastWritesEverySlaveAndAnswersNone : Prop :=
  ∀ s : State, s.slaves.wf = true →
    (∀ ops, exec (.rhr 0x00#8 ops) s = .next s) ∧
    (∀ ops, exec (.rir 0x00#8 ops) s = .next s) ∧
    (∀ p, exec (.wsr 0x00#8 p) s = .next s) ∧
    (∀ fc p, exec (.illegal 0x00#8 fc p) s = .next s) ∧
    (∀ p, exec (.wmr 0x00#8 (.malformed p)) s = .next s) ∧
    (∀ start, exec (.wmr 0x00#8 (.fields start [])) s = .next s) ∧
    (∀ (start : Word) (values : List Word), values ≠ [] →
      ∃ m', exec (.wmr 0x00#8 (.fields start values)) s = .next { s with slaves := m' } ∧
        layout m' = layout s.slaves ∧
        ∀ a sp i, m'.reg a sp i =
          if sp = .holding ∧ contained s.slaves a .holding start.toNat values.length = true ∧
              start.toNat ≤ i ∧ i < start.toNat + values.length then values[i - start.toNat]?
          else s.slaves.reg a sp i)

/-- Rule R214 (with R210, R211 and R72): a step emits at most one response, and only a tick that
completes a valid frame does; it is then preceded by exactly one `RequestHandled` that carries the
PDUs of that frame and of that response. Every other step emits at most one event. -/
def Obligations.AtMostOneResponseAfterItsHook : Prop :=
  ∀ s t : State, step s = .next t →
    ∃ os, t.outputs = s.outputs ++ os ∧
      (os = [] ∨ (∃ r, os = [.asmDrop r]) ∨ (∃ k f, os = [.errorHook k f]) ∨
        (∃ r, os = [.result r]) ∨
        (∃ a req rsp, os = [.requestHandled a req rsp, .tx (crcAppend (a :: rsp))] ∧
          s.inputs.head? = some .tick ∧ s.run = true ∧ s.asm.state = .receiving ∧
          s.params.tIF ≤ s.asm.sil + 1 ∧ a ≠ 0x00#8 ∧ s.registered a.toNat = true ∧
          s.asm.buf = crcAppend (a :: req)))

/-- The step function is total, and every instruction completes in every state: no fault and no
refusal (rule R316). -/
def Obligations.NothingFaultsOrIsRefused : Prop :=
  (∀ s : State, ∃ t, step s = .next t) ∧ (∀ (i : Instr) (s : State), ∃ t, exec i s = .next t)

/-! ### The function codes -/

/-- Rule R105: the answer to a read of either function, for every read that succeeds. -/
def Obligations.ReadsAnswerWithTheWords : Prop :=
  readSucceeds .rhr 0x03#8 .holding ∧ readSucceeds .rir 0x04#8 .input

/-- The checks c2 to c6 of the read functions (43_functions.md section 1). The causes and the code of
exception 0x03, the place of the checks and the oracle are the spec's own decisions D10 to D13 and
D19. -/
def Obligations.FailedReadsAnswerExceptions : Prop :=
  readFails .rhr 0x03#8 .holding ∧ readFails .rir 0x04#8 .input

/-- Rule R106: a write that succeeds stores its values, and is answered, in 8 bytes, with bytes 2 to 5
of the request. -/
def Obligations.WritesStoreAndEchoStartAndCount : Prop :=
  ∀ (s : State) (a : Byte) (start : Word) (values : List Word), s.slaves.wf = true → a ≠ 0x00#8 →
    values ≠ [] → contained s.slaves a.toNat .holding start.toNat values.length = true →
    (a, writePdu start values) ∉ s.params.internalFault →
    ∃ m' rsp, rsp = 0x10#8 :: (encode (.wmr a (.fields start values))).extract 2 6 ∧
      rsp = [0x10#8, hi start, lo start, hi (BitVec.ofNat 16 values.length),
        lo (BitVec.ofNat 16 values.length)] ∧
      (crcAppend (a :: rsp)).length = 8 ∧
      exec (.wmr a (.fields start values)) s =
        .next (answered { s with slaves := m' } a (writePdu start values) rsp) ∧
      written s.slaves m' a.toNat .holding start.toNat values

/-- The checks c2 to c4 and c6 of the write function (43_functions.md sections 1 and 2): each answers
its exception and no register is written. The causes and the code of exception 0x03 and the oracle are
the spec's own decisions D10, D11 and D19. -/
def Obligations.FailedWritesAnswerExceptions : Prop :=
  ∀ (s : State) (a : Byte), s.slaves.wf = true → a ≠ 0x00#8 → s.registered a.toNat = true →
    (∀ p, exec (.wmr a (.malformed p)) s =
      .next (answered s a (0x10#8 :: p) [0x90#8, 0x03#8])) ∧
    (∀ start : Word, exec (.wmr a (.fields start [])) s =
      .next (answered s a (writePdu start []) [0x90#8, 0x03#8])) ∧
    (∀ (start : Word) (values : List Word), values ≠ [] →
      contained s.slaves a.toNat .holding start.toNat values.length = false →
      exec (.wmr a (.fields start values)) s =
        .next (answered s a (writePdu start values) [0x90#8, 0x02#8])) ∧
    (∀ (start : Word) (values : List Word), values ≠ [] →
      contained s.slaves a.toNat .holding start.toNat values.length = true →
      (a, writePdu start values) ∈ s.params.internalFault →
      exec (.wmr a (.fields start values)) s =
        .next (answered s a (writePdu start values) [0x90#8, 0x04#8]))

/-- Rule R245: every other function code, sent to a registered slave, is answered with exception 0x01
whatever its payload, and reads and writes nothing; a code with bit 7 set comes back as it is. -/
def Obligations.OtherFunctionsAnswerIllegalFunction : Prop :=
  ∀ (s : State) (a fc : Byte) (p : List Byte), a ≠ 0x00#8 → s.registered a.toNat = true →
    exec (.illegal a fc p) s = .next (answered s a (fc :: p) [fc ||| 0x80#8, 0x01#8]) ∧
    (fc.getLsbD 7 = true →
      exec (.illegal a fc p) s = .next (answered s a (fc :: p) [fc, 0x01#8]))

/-- `WriteSingleRegister`, sent to a registered slave, is answered with exception 0x01 whatever its
payload, and writes nothing (43_functions.md section 3). That it is rejected and not ignored is the
spec's own decision D8. -/
def Obligations.WriteSingleRegisterIsRejected : Prop :=
  ∀ (s : State) (a : Byte) (p : List Byte), a ≠ 0x00#8 → s.registered a.toNat = true →
    exec (.wsr a p) s = .next (answered s a (0x06#8 :: p) [0x86#8, 0x01#8])

/-- Rule R307: exception entry. The two-byte exception PDU is answered as a normal response is:
`RequestHandled`, then the framed `Tx`; and nothing else changes. -/
def Obligations.ExceptionEntryOnlyAnswers : Prop :=
  ∀ (s : State) (a fc : Byte) (p : List Byte) (req : Instr), req.addr = a → req.pdu = fc :: p →
    s.takeException req .illegalFunction = answered s a (fc :: p) [fc ||| 0x80#8, 0x01#8] ∧
    s.takeException req .illegalDataAddress = answered s a (fc :: p) [fc ||| 0x80#8, 0x02#8] ∧
    s.takeException req .illegalDataValue = answered s a (fc :: p) [fc ||| 0x80#8, 0x03#8] ∧
    s.takeException req .slaveDeviceFailure = answered s a (fc :: p) [fc ||| 0x80#8, 0x04#8]

/-- A response row is what the hardware sends (DEDUCED, log entry 7): its frame, in the format of
rules R105 to R107, is handed to the transport as one event, and nothing else changes. -/
def Obligations.ResponsesAreTransmittedWhole : Prop :=
  ∀ (s : State) (a : Byte),
    (∀ values : List Word, exec (.rhrRsp a values) s = .next (emits s
      [.tx (crcAppend (a :: 0x03#8 :: BitVec.ofNat 8 (2 * values.length) :: wordBytes values))])) ∧
    (∀ values : List Word, exec (.rirRsp a values) s = .next (emits s
      [.tx (crcAppend (a :: 0x04#8 :: BitVec.ofNat 8 (2 * values.length) :: wordBytes values))])) ∧
    (∀ start count : Word, exec (.wmrRsp a start count) s = .next (emits s
      [.tx (crcAppend [a, 0x10#8, hi start, lo start, hi count, lo count])])) ∧
    (∀ fc : Byte,
      exec (.exc a fc .illegalFunction) s = .next (emits s [.tx (crcAppend [a, fc, 0x01#8])]) ∧
      exec (.exc a fc .illegalDataAddress) s = .next (emits s [.tx (crcAppend [a, fc, 0x02#8])]) ∧
      exec (.exc a fc .illegalDataValue) s = .next (emits s [.tx (crcAppend [a, fc, 0x03#8])]) ∧
      exec (.exc a fc .slaveDeviceFailure) s = .next (emits s [.tx (crcAppend [a, fc, 0x04#8])]))

/-- The frame of every instruction: run control, the assembler, the mode, the parameters, the events
to come and the layout of the banks never change, and a register changes only if a write of holding
registers names it and is addressed to its slave or to all (rules R67 and R215). -/
def Obligations.InstructionsChangeOnlyTheRegistersTheyName : Prop :=
  ∀ (i : Instr) (s t : State), s.slaves.wf = true → exec i s = .next t →
    t.params = s.params ∧ t.run = s.run ∧ t.asm = s.asm ∧
    t.errOnMissingSlave = s.errOnMissingSlave ∧ t.inputs = s.inputs ∧
    layout t.slaves = layout s.slaves ∧
    ∀ a sp j, t.slaves.reg a sp j ≠ s.slaves.reg a sp j →
      ∃ (dst : Byte) (start : Word) (values : List Word), i = .wmr dst (.fields start values) ∧
        sp = .holding ∧ (dst = 0x00#8 ∨ dst.toNat = a) ∧
        start.toNat ≤ j ∧ j < start.toNat + values.length

/-- The next request sees the write (rules R70 and R351): after a write that succeeds, a read of the
same range is answered with the values written. -/
def Obligations.ReadAfterWriteSeesTheValues : Prop :=
  ∀ (s t : State) (a : Byte) (start : Word) (values : List Word), s.slaves.wf = true →
    a ≠ 0x00#8 → values ≠ [] → values.length ≤ 123 →
    contained s.slaves a.toNat .holding start.toNat values.length = true →
    s.params.internalFault = [] →
    exec (.wmr a (.fields start values)) s = .next t →
    exec (.rhr a (.fields start (BitVec.ofNat 16 values.length))) t =
      .next (answered t a (readPdu 0x03#8 start (BitVec.ofNat 16 values.length))
        (0x03#8 :: BitVec.ofNat 8 (2 * values.length) :: wordBytes values))

/-! ### The host port -/

/-- `AddSlave` (44_register_bank_and_host.md section 1; `InvalidAddress` is the spec's own decision
D16). -/
def Obligations.AddSlaveRegistersAnEmptyBank : Prop :=
  ∀ (s : State) (a : Nat) (es : List Event), s.inputs = .addSlave a :: es →
    ((a < 1 ∨ 247 < a) →
      step s = .next (emits { s with inputs := es } [.result (.error .invalidAddress)])) ∧
    (1 ≤ a → a ≤ 247 → s.registered a = true →
      step s = .next (emits { s with inputs := es } [.result (.error .duplicateAddress)])) ∧
    (1 ≤ a → a ≤ 247 → s.registered a = false →
      ∃ m, step s = .next (emits { s with inputs := es, slaves := m } [.result .ok]) ∧
        ∀ a', m.bank a' = if a' = a then some { hold := [], inp := [] } else s.slaves.bank a')

/-- `RemoveSlave` (44_register_bank_and_host.md section 1, the spec's own decision D21). -/
def Obligations.RemoveSlaveDestroysTheBank : Prop :=
  ∀ (s : State) (a : Nat) (es : List Event), s.slaves.wf = true → s.inputs = .removeSlave a :: es →
    (s.registered a = false →
      step s = .next (emits { s with inputs := es } [.result (.error .unknownSlave)])) ∧
    (s.registered a = true →
      ∃ m, step s = .next (emits { s with inputs := es, slaves := m } [.result .ok]) ∧
        ∀ a', m.bank a' = if a' = a then none else s.slaves.bank a')

/-- `AddBlock` (44_register_bank_and_host.md section 1). The bounds of a block are the spec's own
decision D14; what a register of the new block holds, 0x0000, is its decision D22 (log entry 6). -/
def Obligations.AddBlockDeclaresAFreeRange : Prop :=
  ∀ (s : State) (a : Nat) (sp : Space) (start : Word) (length : Nat) (es : List Event),
    s.inputs = .addBlock a sp start length :: es →
    (s.slaves.bank a = none →
      step s = .next (emits { s with inputs := es } [.result (.error .unknownSlave)])) ∧
    (∀ bk, s.slaves.bank a = some bk →
      ((length < 1 ∨ 65536 < start.toNat + length) →
        step s = .next (emits { s with inputs := es } [.result (.error .invalidBlock)])) ∧
      (1 ≤ length → start.toNat + length ≤ 65536 →
        (∃ b ∈ bk.blocks sp, start.toNat < b.start + b.length ∧ b.start < start.toNat + length) →
        step s = .next (emits { s with inputs := es } [.result (.error .overlapError)])) ∧
      (1 ≤ length → start.toNat + length ≤ 65536 →
        (∀ b ∈ bk.blocks sp, b.start + b.length ≤ start.toNat ∨ start.toNat + length ≤ b.start) →
        ∃ m bk', step s = .next (emits { s with inputs := es, slaves := m } [.result .ok]) ∧
          m.bank a = some bk' ∧ (∀ a', a' ≠ a → m.bank a' = s.slaves.bank a') ∧
          (∀ sp', sp' ≠ sp → bk'.blocks sp' = bk.blocks sp') ∧
          (∀ b, b ∈ bk'.blocks sp ↔ b ∈ bk.blocks sp ∨
            b = { start := start.toNat, data := List.replicate length 0x0000#16 })))

/-- `HostWrite` reaches either space, is all or nothing, and raises no hook
(44_register_bank_and_host.md section 2, the spec's own decision D20). -/
def Obligations.HostWriteStoresInEitherSpace : Prop :=
  ∀ (s : State) (a : Nat) (sp : Space) (start : Word) (values : List Word) (es : List Event),
    s.slaves.wf = true → s.inputs = .hostWrite a sp start values :: es →
    (s.registered a = false →
      step s = .next (emits { s with inputs := es } [.result (.error .unknownSlave)])) ∧
    (s.registered a = true → values = [] →
      step s = .next (emits { s with inputs := es } [.result (.error .illegalAddress)])) ∧
    (s.registered a = true → values ≠ [] →
      contained s.slaves a sp start.toNat values.length = false →
      step s = .next (emits { s with inputs := es } [.result (.error .illegalAddress)])) ∧
    (s.registered a = true → values ≠ [] →
      contained s.slaves a sp start.toNat values.length = true →
      ∃ m, step s = .next (emits { s with inputs := es, slaves := m } [.result .ok]) ∧
        written s.slaves m a sp start.toNat values)

/-- `HostRead` reads either space and changes nothing (44_register_bank_and_host.md section 2, the
spec's own decision D20). -/
def Obligations.HostReadGivesTheWords : Prop :=
  ∀ (s : State) (a : Nat) (sp : Space) (start : Word) (count : Nat) (es : List Event),
    s.slaves.wf = true → s.inputs = .hostRead a sp start count :: es →
    (s.registered a = false →
      step s = .next (emits { s with inputs := es } [.result (.error .unknownSlave)])) ∧
    (s.registered a = true → count = 0 →
      step s = .next (emits { s with inputs := es } [.result (.error .illegalAddress)])) ∧
    (s.registered a = true → count ≠ 0 → contained s.slaves a sp start.toNat count = false →
      step s = .next (emits { s with inputs := es } [.result (.error .illegalAddress)])) ∧
    (∀ bk b, s.slaves.bank a = some bk → count ≠ 0 → b ∈ bk.blocks sp →
      covers b start.toNat count = true →
      step s = .next (emits { s with inputs := es }
        [.result (.value ((b.data.drop (start.toNat - b.start)).take count))]))

/-- `SetErrOnMissingSlave` (44_register_bank_and_host.md section 3, the spec's own decision D31). -/
def Obligations.ModeIsSetAtOnce : Prop :=
  ∀ (s : State) (v : Bool) (es : List Event), s.inputs = .setErrOnMissingSlave v :: es →
    step s = .next (emits { s with inputs := es, errOnMissingSlave := v } [.result .ok])

/-- `Start` and `Stop` (44_register_bank_and_host.md section 3, the spec's own decision D26). -/
def Obligations.StartAndStopControlTheLoop : Prop :=
  ∀ (s : State) (es : List Event),
    (s.inputs = .start :: es → s.run = true →
      step s = .next (emits { s with inputs := es } [.result (.error .alreadyRunning)])) ∧
    (s.inputs = .start :: es → s.run = false →
      step s = .next (emits
        { s with inputs := es, run := true, asm := { state := .idle, buf := [], sil := 0 } }
        [.result .ok])) ∧
    (s.inputs = .stop :: es →
      step s = .next (emits
        { s with inputs := es, run := false, asm := { state := .idle, buf := [], sil := 0 } }
        [.result .ok]))

/-- Rule R341: `Stop` then `Start`, whether or not the loop was running, leaves it running with the
assembler in `Idle` and empty, and every other piece of state as it was. -/
def Obligations.StopThenStartClearsOnlyTheAssembler : Prop :=
  ∀ (s : State) (es : List Event), s.inputs = .stop :: .start :: es →
    steps 2 s =
      .next (emits
        { s with inputs := es, run := true, asm := { state := .idle, buf := [], sil := 0 } }
        [.result .ok, .result .ok])

/-- 60_exceptions.md section 1 (the errors beyond the source's are the spec's own decisions D14, D16,
D21 and D26): a host command that returns an error changes no state and sends nothing on the bus, and
each command returns only the errors listed for it. -/
def Obligations.ConfigurationErrorsChangeNothing : Prop :=
  ∀ (s t : State) (e : Event) (es : List Event) (x : ConfigError), s.inputs = e :: es →
    step s = .next t → t.outputs = s.outputs ++ [.result (.error x)] →
    x ∈ errorsOf e ∧ t = emits { s with inputs := es } [.result (.error x)]

/-- 70_reset_and_hazards.md section 1 (the spec's own decision D29): `Reset` is accepted in any
state, gives every state variable its reset value and emits nothing; the parameters stay. -/
def Obligations.ResetEventClearsEverything : Prop :=
  ∀ (s : State) (es : List Event), s.inputs = .reset :: es →
    step s = .next
      { params := s.params, run := false, asm := { state := .idle, buf := [], sil := 0 },
        errOnMissingSlave := s.params.errOnMissingSlave, slaves := [], inputs := es,
        outputs := s.outputs }

/-! ### Whole-machine rules -/

/-- The invariant of the machine: legal parameters, an assembler that is `Idle` if and only if empty
and never holds more than 256 bytes or a silence of `T_IF`, and banks in canonical form (rules R23,
R24, R26 and R27). Every step keeps it. -/
def Obligations.EveryStepKeepsTheStateSound : Prop :=
  ∀ s t : State, s.sound = true → step s = .next t → t.sound = true

/-- The invariant holds at reset of every legal instance, and so at `State.reset`, whose parameters
are the model's choice (log entry 2). -/
def Obligations.ResetStateIsSound : Prop :=
  (∀ p : Params, p.legal = true → (State.resetOf p).sound = true) ∧ State.reset.sound = true

/-- Who may change what (rules R5, R22, R24, R28, R30 and R310): each step consumes one event and
keeps the parameters; `run`, the mode, the set of slaves, the layout of the banks, the input
registers and the assembler change only by the events that are allowed to change them. In particular
the bus can write no input register and can reconfigure nothing. -/
def Obligations.ControlStateChangesOnlyByItsOwnEvents : Prop :=
  ∀ (s t : State) (e : Event) (es : List Event), s.inputs = e :: es → step s = .next t →
    t.params = s.params ∧ t.inputs = es ∧
    (t.run ≠ s.run → e = .start ∨ e = .stop ∨ e = .reset) ∧
    (t.errOnMissingSlave ≠ s.errOnMissingSlave →
      (∃ v, e = .setErrOnMissingSlave v) ∨ e = .reset) ∧
    (t.slaves.map Prod.fst ≠ s.slaves.map Prod.fst →
      (∃ a, e = .addSlave a) ∨ (∃ a, e = .removeSlave a) ∨ e = .reset) ∧
    (layout t.slaves ≠ layout s.slaves →
      (∃ a, e = .addSlave a) ∨ (∃ a, e = .removeSlave a) ∨ e = .reset ∨
        ∃ a sp start length, e = .addBlock a sp start length) ∧
    ((∃ a i, t.slaves.reg a .input i ≠ s.slaves.reg a .input i) →
      (∃ a, e = .removeSlave a) ∨ e = .reset ∨
        (∃ a start length, e = .addBlock a .input start length) ∨
        ∃ a start values, e = .hostWrite a .input start values) ∧
    (t.asm ≠ s.asm →
      (∃ b, e = .rxByte b) ∨ e = .tick ∨ e = .start ∨ e = .stop ∨ e = .reset)

/-- With no event waiting nothing happens (the model's own convention, log entry 1): the hardware has
no step of its own. -/
def Obligations.NoEventNoChange : Prop :=
  ∀ s : State, s.inputs = [] → step s = .next s

/-! ### The device model -/

/-- A relay that hears of a write of any word to register 0x10 takes over its ten channels from the
bits of rule R403: bits 15 to 8 for channels 0 to 7 and bits 0 and 1 for channels 8 and 9, in the
order of the open parameter `RELAY_CH8_CH9_BITS`. Its callbacks name exactly the channels that differ,
each once (rule R409), and its own state word is then the word's ten channel bits with all other bits
0 (rule R406). -/
def Obligations.RelayFollowsAnExternalWrite : Prop :=
  ∀ (d : Device) (w : Word), d.kind = .relay → d.channels.length = 10 →
    (d.onRegisterWrite 0x10 [w]).1 = { d with channels := relayChannels d.ch8Low w } ∧
    ((d.onRegisterWrite 0x10 [w]).2.map Prod.fst).Nodup ∧
    (∀ i v, (i, v) ∈ (d.onRegisterWrite 0x10 [w]).2 ↔
      (relayChannels d.ch8Low w)[i]? = some v ∧ d.channels[i]? ≠ some v) ∧
    (d.onRegisterWrite 0x10 [w]).1.stateWord = w &&& 0xFF03#16

/-- Write suppression (45_device_model.md, rule R405): setting a switch to the state it has, or one
that does not exist, issues no command, and a second equal setting issues none. -/
def Obligations.SwitchWritesAreSuppressed : Prop :=
  ∀ (d : Device) (i : Nat) (on : Bool),
    (d.channels[i]? = some on → d.setSwitchState i on = (d, [])) ∧
    (d.channels[i]? = none → d.setSwitchState i on = (d, [])) ∧
    ((d.setSwitchState i on).1.setSwitchState i on).2 = [] ∧
    (∀ sp, stateSpace d.kind = some sp → d.channels[i]? = some (!on) →
      d.setSwitchState i on =
        ({ d with channels := d.channels.set i on },
          [.hostWrite d.addr sp 0x10#16 [({ d with channels := d.channels.set i on }).stateWord]]))
end

