-- ==== Sys2Proof/Laws/Bytes.lean ====
section
/-! SUPPORT. Byte order: splitting a word and putting it together are inverse (rule R62). -/

namespace Sys2Proof.Machine

theorem be16_toNat (h l : Byte) : (be16 h l).toNat = h.toNat * 256 + l.toNat := by
  have hl := l.isLt
  simp only [be16, BitVec.toNat_append, Nat.shiftLeft_eq]
  rw [← Nat.shiftLeft_eq, Nat.shiftLeft_add_eq_or_of_lt hl]

theorem hi_toNat (w : Word) : (hi w).toNat = w.toNat / 256 := by
  have := w.isLt
  simp only [hi, BitVec.extractLsb'_toNat, Nat.shiftRight_eq_div_pow]
  omega

theorem lo_toNat (w : Word) : (lo w).toNat = w.toNat % 256 := by
  simp [lo, BitVec.extractLsb'_toNat]

@[simp] theorem be16_hi_lo (w : Word) : be16 (hi w) (lo w) = w := by
  apply BitVec.eq_of_toNat_eq
  rw [be16_toNat, hi_toNat, lo_toNat]
  omega

@[simp] theorem hi_be16 (h l : Byte) : hi (be16 h l) = h := by
  apply BitVec.eq_of_toNat_eq
  have := l.isLt
  rw [hi_toNat, be16_toNat]
  omega

@[simp] theorem lo_be16 (h l : Byte) : lo (be16 h l) = l := by
  apply BitVec.eq_of_toNat_eq
  have := l.isLt
  rw [lo_toNat, be16_toNat]
  omega

@[simp] theorem wordBytes_length (ws : List Word) : (wordBytes ws).length = 2 * ws.length := by
  induction ws with
  | nil => rfl
  | cons w ws ih => simp only [wordBytes, List.length_cons, ih]; omega

@[simp] theorem bytePairs_wordBytes (ws : List Word) : bytePairs (wordBytes ws) = ws := by
  induction ws with
  | nil => rfl
  | cons w ws ih => simp [wordBytes, bytePairs, ih]

theorem bytePairs_length (bs : List Byte) : (bytePairs bs).length = bs.length / 2 := by
  induction bs using bytePairs.induct with
  | case1 h l bs ih => simp only [bytePairs, List.length_cons, ih]; omega
  | case2 b => simp [bytePairs]
  | case3 => rfl

theorem wordBytes_bytePairs (bs : List Byte) (h : bs.length % 2 = 0) :
    wordBytes (bytePairs bs) = bs := by
  induction bs using bytePairs.induct with
  | case1 h' l bs ih =>
    simp only [List.length_cons] at h
    simp [wordBytes, bytePairs, ih (by omega)]
  | case2 b => simp at h
  | case3 => rfl

end Sys2Proof.Machine
end

