-- ==== Sys2Proof/Laws/Device.lean ====
section
/-! SUPPORT. The device model: which channels a changed vector reports, the state word bit by bit, and
what a temperature update and the setting of a timer can do. -/

namespace Sys2Proof.Machine

/-- Every channel's bit lies in the word (rules R403 and R404). -/
theorem channelBit_lt (d : Device) (i k : Nat) (h : d.channelBit i = some k) : k < 16 := by
  unfold Device.channelBit at h
  (repeat' split at h) <;> simp only [Option.some.injEq, reduceCtorEq] at h <;> omega

/-- What one channel contributes to the state word: its own bit, if it is on. -/
theorem getLsbD_channelMask (d : Device) (i : Nat) (on : Bool) (j : Nat) :
    (d.channelMask i on).getLsbD j = (on && decide (d.channelBit i = some j)) := by
  unfold Device.channelMask
  cases h : d.channelBit i with
  | none => simp
  | some k =>
    have hk := channelBit_lt d i k h
    cases on with
    | false => simp
    | true =>
      by_cases hj : k = j
      · subst hj; simp [hk]
      · simp [hj]; omega

@[simp] theorem wordFrom_nil (d : Device) (i : Nat) : d.wordFrom i [] = 0#16 := by
  simp only [Device.wordFrom]

/-- A bit of the state word, one channel at a time. -/
theorem getLsbD_wordFrom_cons (d : Device) (i : Nat) (on : Bool) (cs : List Bool) (j : Nat) :
    (d.wordFrom i (on :: cs)).getLsbD j =
      (on && decide (d.channelBit i = some j) || (d.wordFrom (i + 1) cs).getLsbD j) := by
  rw [Device.wordFrom, BitVec.getLsbD_or, getLsbD_channelMask]

@[simp] theorem length_channelsOfWord (d : Device) (w : Word) :
    ∀ (i : Nat) (cs : List Bool), (d.channelsOfWord w i cs).length = cs.length
  | _, [] => rfl
  | i, _ :: cs => congrArg (· + 1) (length_channelsOfWord d w (i + 1) cs)

/-- A channel vector taken from a word, entry by entry. -/
theorem getElem?_channelsOfWord (d : Device) (w : Word) :
    ∀ (i : Nat) (cs : List Bool) (j : Nat),
      (d.channelsOfWord w i cs)[j]? = cs[j]?.map (d.channelOfWord w (i + j))
  | _, [], _ => rfl
  | _, _ :: _, 0 => rfl
  | i, _ :: cs, j + 1 => by
    have ih := getElem?_channelsOfWord d w (i + 1) cs j
    rw [show i + 1 + j = i + (j + 1) by omega] at ih
    exact ih

/-- Everything `changedChannels` reports: the channels whose entries differ, with the new one. -/
theorem mem_changedChannels : ∀ (i : Nat) (olds news : List Bool), olds.length = news.length →
    ∀ j v, (j, v) ∈ changedChannels i olds news ↔
      i ≤ j ∧ news[j - i]? = some v ∧ olds[j - i]? ≠ some v
  | _, [], [], _, _, _ => by simp [changedChannels]
  | i, o :: olds, n :: news, h, j, v => by
    have ih := mem_changedChannels (i + 1) olds news (by simpa using h) j v
    rcases Nat.lt_trichotomy j i with hj | rfl | hj
    · simp only [changedChannels]
      split <;> simp [ih] <;> omega
    · by_cases ho : o = n
      · simp [changedChannels, ih, ho]
      · simp only [changedChannels, if_neg ho, List.mem_cons, Prod.mk.injEq, true_and, ih]
        simp only [Nat.sub_self, List.getElem?_cons_zero, Option.some.injEq, ne_eq]
        constructor
        · rintro (rfl | ⟨hl, -⟩)
          · exact ⟨Nat.le_refl _, rfl, ho⟩
          · omega
        · exact fun ⟨_, hn, _⟩ => .inl hn.symm
    · obtain ⟨k, rfl⟩ : ∃ k, j = i + 1 + k := ⟨j - (i + 1), by omega⟩
      have h1 : i + 1 + k - (i + 1) = k := by omega
      have h2 : i + 1 + k - i = k + 1 := by omega
      rw [h1] at ih
      rw [h2]
      simp only [List.getElem?_cons_succ]
      by_cases ho : o = n
      · simp only [changedChannels, if_pos ho, ih]
        constructor <;> rintro ⟨-, h⟩ <;> exact ⟨by omega, h⟩
      · simp only [changedChannels, if_neg ho, List.mem_cons, Prod.mk.injEq, ih]
        constructor
        · rintro (⟨hi, -⟩ | ⟨-, h⟩)
          · omega
          · exact ⟨by omega, h⟩
        · exact fun ⟨_, h⟩ => .inr ⟨by omega, h⟩

/-- `changedChannels` reports no channel below the one it starts from. -/
theorem le_of_mem_changedChannels : ∀ (i : Nat) (olds news : List Bool),
    ∀ p ∈ changedChannels i olds news, i ≤ p.1
  | _, [], _, _, h => by simp [changedChannels] at h
  | _, _ :: _, [], _, h => by simp [changedChannels] at h
  | i, o :: olds, n :: news, p, h => by
    have ih := le_of_mem_changedChannels (i + 1) olds news p
    simp only [changedChannels] at h
    split at h
    · have := ih h; omega
    · rcases List.mem_cons.1 h with rfl | h
      · exact Nat.le_refl _
      · have := ih h; omega

/-- No channel is reported twice (rule R409). -/
theorem nodup_changedChannels : ∀ (i : Nat) (olds news : List Bool),
    ((changedChannels i olds news).map Prod.fst).Nodup
  | _, [], _ => by simp [changedChannels]
  | _, _ :: _, [] => by simp [changedChannels]
  | i, o :: olds, n :: news => by
    have ih := nodup_changedChannels (i + 1) olds news
    simp only [changedChannels]
    split
    · exact ih
    · rw [List.map_cons, List.nodup_cons]
      refine ⟨fun h => ?_, ih⟩
      obtain ⟨p, hp, hpi⟩ := List.mem_map.1 h
      have := le_of_mem_changedChannels (i + 1) olds news p hp
      omega

/-- Rounding stays within integer bounds (rule R412), whichever way a tie goes. -/
theorem roundTenths_bounds (x : Rat) (lo hi : Int) (hl : (lo : Rat) ≤ x) (hh : x ≤ (hi : Rat)) :
    lo ≤ roundTenths x ∧ roundTenths x ≤ hi := by
  have h1 : lo ≤ x.floor := Rat.le_floor_iff.2 hl
  have h2 : (x.floor : Rat) ≤ x := Rat.floor_le x
  have h3 : x.floor ≤ hi := by exact_mod_cast h2.trans hh
  have h4 : (1 / 2 : Rat) ≤ x - x.floor → x.floor + 1 ≤ hi := fun h => by
    have : (x.floor : Rat) < hi := by linarith
    exact_mod_cast this
  unfold roundTenths
  split
  · exact ⟨h1, h3⟩
  · have := h4 (by linarith)
    split
    · omega
    · split <;> omega

/-- Within the range of rule R412 the word is the rounded tenths of a degree, which fit 16 bits. -/
theorem temperatureWord_inRange (c : Rat) (hl : -32768 / 10 ≤ c) (hh : c ≤ 32767 / 10) :
    temperatureWord c = some (BitVec.ofInt 16 (roundTenths (c * 10))) ∧
      -32768 ≤ roundTenths (c * 10) ∧ roundTenths (c * 10) ≤ 32767 :=
  ⟨if_pos ⟨hl, hh⟩,
    roundTenths_bounds (c * 10) (-32768) 32767 (by push_cast; linarith) (by push_cast; linarith)⟩

/-- Everything `temperatureUpdate` can do (rule R412). -/
theorem temperatureUpdate_cases (d : Device) (c : Option Rat) :
    d.temperatureUpdate c = (d, []) ∨
      ∃ x w, d.kind = .temperature ∧ c = some x ∧ temperatureWord x = some w ∧
        d.temperatureUpdate c =
          ({ d with scaled := some w }, [.hostWrite d.addr .input 0x20#16 [w]]) := by
  unfold Device.temperatureUpdate
  split
  · next x hk =>
    cases hw : temperatureWord x with
    | none => exact .inl rfl
    | some w => exact .inr ⟨x, w, hk, rfl, hw, rfl⟩
  · exact .inl rfl

/-- A temperature in range is kept as the last good value and written to the register (rule R412). -/
theorem temperatureUpdate_inRange (d : Device) (c : Rat) (hk : d.kind = .temperature)
    (hl : -32768 / 10 ≤ c) (hh : c ≤ 32767 / 10) :
    d.temperatureUpdate (some c) =
      ({ d with scaled := some (BitVec.ofInt 16 (roundTenths (c * 10))) },
        [.hostWrite d.addr .input 0x20#16 [BitVec.ofInt 16 (roundTenths (c * 10))]]) := by
  simp only [Device.temperatureUpdate, hk, (temperatureWord_inRange c hl hh).1]

/-- Setting a timer makes none and destroys none. -/
@[simp] theorem hasTimer_setTimer (d : Device) (i j : Nat) (on : Bool) (t : Rat) :
    (d.setTimer i on t).1.hasTimer j = d.hasTimer j := by
  unfold Device.setTimer
  split <;> simp [Device.hasTimer]

/-- A timer read back from the timer array after it has been set is the word set (rule R407). -/
theorem getTimer_setTimer (d : Device) (i : Nat) (on : Bool) (t : Rat) (h : d.hasTimer i = true) :
    (d.setTimer i on t).1.getTimer i =
      if Config.timerReadsRegister then
        .register (.hostRead d.addr .holding (BitVec.ofNat 16 (0x20 + i)) 1)
      else .held (timerWord on t) := by
  have hi : i < d.timers.length := (of_decide_eq_true h).2
  rw [Device.getTimer, hasTimer_setTimer, if_pos h]
  simp [Device.setTimer, h, hi]

/-- Setting a timer leaves every other timer as it was. -/
theorem timers_setTimer_ne (d : Device) (i j : Nat) (on : Bool) (t : Rat) (h : i ≠ j) :
    (d.setTimer i on t).1.timers[j]? = d.timers[j]? := by
  unfold Device.setTimer
  split
  · exact List.getElem?_set_ne h
  · rfl

end Sys2Proof.Machine
end

