-- ==== Sys2Proof/Laws/Memory.lean ====
section
/-! SUPPORT. Every operation on the register banks keeps their canonical form (rules R23 and R24). -/

namespace Sys2Proof.Machine

/-! ### Blocks -/

theorem Block.contains_iff (b : Block) (start count : Nat) :
    b.contains start count = true ↔ b.start ≤ start ∧ start + count ≤ b.start + b.length := by
  simp [Block.contains]

@[simp] theorem Block.store_start (b : Block) (o : Nat) (values : List Word) :
    (b.store o values).start = b.start := rfl

theorem Block.store_length {b : Block} {o : Nat} {values : List Word}
    (h : o + values.length ≤ b.length) : (b.store o values).length = b.length := by
  simp only [Block.length, Block.store, List.length_append, List.length_take,
    List.length_drop] at h ⊢
  omega

theorem blocksWf_cons {lo : Nat} {b : Block} {bs : List Block} :
    blocksWf lo (b :: bs) = true ↔
      (lo ≤ b.start ∧ 1 ≤ b.length ∧ b.start + b.length ≤ Config.spaceSize) ∧
        blocksWf (b.start + b.length) bs = true := by
  simp [blocksWf]

theorem blocksWf_weaken {lo lo' : Nat} {bs : List Block} (hl : lo' ≤ lo)
    (h : blocksWf lo bs = true) : blocksWf lo' bs = true := by
  cases bs with
  | nil => rfl
  | cons b bs =>
    rw [blocksWf_cons] at h ⊢
    exact ⟨⟨by omega, h.1.2⟩, h.2⟩

theorem writeBlocks_wf {lo start : Nat} {bs bs' : List Block} {values : List Word}
    (h : blocksWf lo bs = true) (hw : writeBlocks bs start values = some bs') :
    blocksWf lo bs' = true := by
  induction bs generalizing lo bs' with
  | nil => simp [writeBlocks] at hw
  | cons b bs ih =>
    rw [blocksWf_cons] at h
    simp only [writeBlocks] at hw
    split at hw
    case isTrue hc =>
      cases hw
      rw [Block.contains_iff] at hc
      have hlen : (b.store (start - b.start) values).length = b.length :=
        Block.store_length (by omega)
      rw [blocksWf_cons, hlen, Block.store_start]
      exact h
    case isFalse =>
      split at hw
      case h_1 bs₁ heq =>
        cases hw
        rw [blocksWf_cons]
        exact ⟨h.1, ih h.2 heq⟩
      case h_2 => cases hw

theorem insertBlock_wf {lo : Nat} {b : Block} {bs : List Block} (h : blocksWf lo bs = true)
    (hlo : lo ≤ b.start) (hlen : 1 ≤ b.length) (hend : b.start + b.length ≤ Config.spaceSize)
    (hfree : ∀ c ∈ bs, c.intersects b.start b.length = false) :
    blocksWf lo (insertBlock b bs) = true := by
  induction bs generalizing lo with
  | nil => simp [insertBlock, blocksWf, hlo, hlen, hend]
  | cons c cs ih =>
    rw [blocksWf_cons] at h
    have hc := hfree c (by simp)
    simp only [Block.intersects, decide_eq_false_iff_not] at hc
    simp only [insertBlock]
    split
    case isTrue hlt =>
      rw [blocksWf_cons, blocksWf_cons]
      exact ⟨⟨hlo, hlen, hend⟩, ⟨by omega, h.1.2⟩, h.2⟩
    case isFalse hge =>
      rw [blocksWf_cons]
      exact ⟨h.1, ih h.2 (by omega) (fun d hd => hfree d (by simp [hd]))⟩

@[simp] theorem newBlock_length (start length : Nat) : (newBlock start length).length = length := by
  simp [newBlock, Block.length]

@[simp] theorem newBlock_start (start length : Nat) : (newBlock start length).start = start := rfl

/-! ### Banks -/

@[simp] theorem Bank.setBlocks_blocks (bk : Bank) (sp : Space) (bs : List Block) :
    (bk.setBlocks sp bs).blocks sp = bs := by
  cases sp <;> rfl

theorem Bank.setBlocks_other {sp sp' : Space} (bk : Bank) (bs : List Block) (h : sp' ≠ sp) :
    (bk.setBlocks sp bs).blocks sp' = bk.blocks sp' := by
  cases sp <;> cases sp' <;> first | rfl | exact absurd rfl h

theorem Bank.wf_iff (bk : Bank) : bk.wf = true ↔ ∀ sp, blocksWf 0 (bk.blocks sp) = true := by
  constructor
  · intro h sp
    simp only [Bank.wf, Bool.and_eq_true] at h
    cases sp
    · exact h.1
    · exact h.2
  · intro h
    simp only [Bank.wf, Bool.and_eq_true]
    exact ⟨h .holding, h .input⟩

theorem Bank.setBlocks_wf {bk : Bank} {sp : Space} {bs : List Block} (h : bk.wf = true)
    (hb : blocksWf 0 bs = true) : (bk.setBlocks sp bs).wf = true := by
  rw [Bank.wf_iff] at h ⊢
  intro sp'
  by_cases he : sp' = sp
  · subst he; rw [Bank.setBlocks_blocks]; exact hb
  · rw [Bank.setBlocks_other bk bs he]; exact h sp'

/-- What a store into a bank can do: it fails, or replaces the blocks of that space. -/
theorem Bank.store_cases {bk bk' : Bank} {sp : Space} {start : Nat} {values : List Word}
    (h : bk.store sp start values = .ok bk') :
    ∃ bs, writeBlocks (bk.blocks sp) start values = some bs ∧ bk' = bk.setBlocks sp bs := by
  unfold Bank.store at h
  split at h
  case h_1 bs heq => exact ⟨bs, heq, by simpa using h.symm⟩
  case h_2 => cases h

theorem Bank.store_wf {bk bk' : Bank} {sp : Space} {start : Nat} {values : List Word}
    (hw : bk.wf = true) (h : bk.store sp start values = .ok bk') : bk'.wf = true := by
  obtain ⟨bs, hbs, rfl⟩ := Bank.store_cases h
  exact Bank.setBlocks_wf hw (writeBlocks_wf ((Bank.wf_iff bk).1 hw sp) hbs)

/-- A bus write that succeeds is a store into the holding space (rule R276). -/
theorem Bank.write_cases {bk bk' : Bank} {sp : Space} {start : Nat} {values : List Word}
    (h : bk.write sp start values = .ok bk') :
    sp = .holding ∧ bk.store .holding start values = .ok bk' := by
  cases sp with
  | holding => exact ⟨rfl, h⟩
  | input => cases h

theorem Bank.write_wf {bk bk' : Bank} {sp : Space} {start : Nat} {values : List Word}
    (hw : bk.wf = true) (h : bk.write sp start values = .ok bk') : bk'.wf = true :=
  Bank.store_wf hw (Bank.write_cases h).2

theorem Bank.broadcastWrite_wf {bk : Bank} (start : Nat) (values : List Word)
    (hw : bk.wf = true) : (bk.broadcastWrite start values).wf = true := by
  unfold Bank.broadcastWrite
  split
  case h_1 bk' heq => exact Bank.write_wf hw heq
  case h_2 => exact hw

/-! ### The slave table -/

theorem Memory.wfFrom_cons {lo a : Nat} {bk : Bank} {m : Memory} :
    Memory.wfFrom lo ((a, bk) :: m) = true ↔
      (lo ≤ a ∧ a ≤ Config.addrMax) ∧ bk.wf = true ∧ Memory.wfFrom (a + 1) m = true := by
  simp [Memory.wfFrom, and_assoc]

theorem Memory.wfFrom_weaken {lo lo' : Nat} {m : Memory} (hl : lo' ≤ lo)
    (h : Memory.wfFrom lo m = true) : Memory.wfFrom lo' m = true := by
  cases m with
  | nil => rfl
  | cons e m =>
    rw [Memory.wfFrom_cons] at h ⊢
    exact ⟨⟨by omega, h.1.2⟩, h.2⟩

theorem Memory.bank_wf {lo a : Nat} {m : Memory} {bk : Bank} (h : Memory.wfFrom lo m = true)
    (hb : m.bank a = some bk) : bk.wf = true := by
  induction m generalizing lo with
  | nil => cases hb
  | cons e m ih =>
    rw [Memory.wfFrom_cons] at h
    simp only [Memory.bank] at hb
    split at hb
    · cases hb; exact h.2.1
    · exact ih h.2.2 hb

theorem Memory.setBank_wfFrom {lo a : Nat} {m : Memory} {bk : Bank}
    (h : Memory.wfFrom lo m = true) (hb : bk.wf = true) :
    Memory.wfFrom lo (m.setBank a bk) = true := by
  induction m generalizing lo with
  | nil => rfl
  | cons e m ih =>
    rw [Memory.wfFrom_cons] at h
    simp only [Memory.setBank]
    split
    · rw [Memory.wfFrom_cons]; exact ⟨h.1, hb, h.2.2⟩
    · rw [Memory.wfFrom_cons]; exact ⟨h.1, h.2.1, ih h.2.2⟩

theorem Memory.setBank_wf {a : Nat} {m : Memory} {bk : Bank} (h : m.wf = true)
    (hb : bk.wf = true) : Memory.wf (m.setBank a bk) = true :=
  Memory.setBank_wfFrom h hb

theorem Memory.insert_wfFrom {lo a : Nat} {m : Memory} {bk : Bank}
    (h : Memory.wfFrom lo m = true) (hlo : lo ≤ a) (hmax : a ≤ Config.addrMax)
    (hb : bk.wf = true) (hnew : m.bank a = none) : Memory.wfFrom lo (m.insert a bk) = true := by
  induction m generalizing lo with
  | nil => simp [Memory.insert, Memory.wfFrom, hlo, hmax, hb]
  | cons e m ih =>
    rw [Memory.wfFrom_cons] at h
    simp only [Memory.bank] at hnew
    split at hnew
    case isTrue => cases hnew
    case isFalse hne =>
      simp only [Memory.insert]
      split
      · rw [Memory.wfFrom_cons, Memory.wfFrom_cons]
        exact ⟨⟨hlo, hmax⟩, hb, ⟨by omega, h.1.2⟩, h.2⟩
      · rw [Memory.wfFrom_cons]
        exact ⟨h.1, h.2.1, ih h.2.2 (by omega) hnew⟩

theorem Memory.insert_wf {a : Nat} {m : Memory} {bk : Bank} (h : m.wf = true)
    (hmin : Config.addrMin ≤ a) (hmax : a ≤ Config.addrMax) (hb : bk.wf = true)
    (hnew : m.bank a = none) : Memory.wf (m.insert a bk) = true :=
  Memory.insert_wfFrom h hmin hmax hb hnew

theorem Memory.remove_wfFrom {lo a : Nat} {m : Memory} (h : Memory.wfFrom lo m = true) :
    Memory.wfFrom lo (m.remove a) = true := by
  induction m generalizing lo with
  | nil => rfl
  | cons e m ih =>
    rw [Memory.wfFrom_cons] at h
    simp only [Memory.remove]
    split
    · exact Memory.wfFrom_weaken (by omega) h.2.2
    · rw [Memory.wfFrom_cons]; exact ⟨h.1, h.2.1, ih h.2.2⟩

theorem Memory.remove_wf {a : Nat} {m : Memory} (h : m.wf = true) :
    Memory.wf (m.remove a) = true :=
  Memory.remove_wfFrom h

/-- A bus write that succeeds replaces one registered slave's bank (rule R276). -/
theorem Memory.write_cases {m m' : Memory} {a start : Nat} {sp : Space} {values : List Word}
    (h : m.write a sp start values = .ok m') :
    ∃ bk bk', m.bank a = some bk ∧ bk.write sp start values = .ok bk' ∧ m' = m.setBank a bk' := by
  unfold Memory.write at h
  split at h
  case h_1 bk hbk =>
    split at h
    case h_1 bk' hw => exact ⟨bk, bk', hbk, hw, by simpa using h.symm⟩
    case h_2 => cases h
  case h_2 => cases h

theorem Memory.write_wf {m m' : Memory} {a start : Nat} {sp : Space} {values : List Word}
    (hm : m.wf = true) (h : m.write a sp start values = .ok m') : Memory.wf m' = true := by
  obtain ⟨bk, bk', hbk, hw, rfl⟩ := Memory.write_cases h
  exact Memory.setBank_wf hm (Bank.write_wf (Memory.bank_wf hm hbk) hw)

/-- A host store that succeeds replaces one registered slave's bank (rule R277). -/
theorem Memory.hostStore_cases {m m' : Memory} {a start : Nat} {sp : Space} {values : List Word}
    (h : m.hostStore a sp start values = .ok m') :
    ∃ bk bk', m.bank a = some bk ∧ bk.store sp start values = .ok bk' ∧ m' = m.setBank a bk' := by
  unfold Memory.hostStore at h
  split at h
  case h_1 bk hbk =>
    split at h
    case h_1 bk' hw => exact ⟨bk, bk', hbk, hw, by simpa using h.symm⟩
    case h_2 => cases h
  case h_2 => cases h

theorem Memory.hostStore_wf {m m' : Memory} {a start : Nat} {sp : Space} {values : List Word}
    (hm : m.wf = true) (h : m.hostStore a sp start values = .ok m') : Memory.wf m' = true := by
  obtain ⟨bk, bk', hbk, hw, rfl⟩ := Memory.hostStore_cases h
  exact Memory.setBank_wf hm (Bank.store_wf (Memory.bank_wf hm hbk) hw)

theorem Memory.broadcastWrite_wfFrom {lo : Nat} {m : Memory} (start : Nat) (values : List Word)
    (h : Memory.wfFrom lo m = true) :
    Memory.wfFrom lo (m.broadcastWrite start values) = true := by
  induction m generalizing lo with
  | nil => rfl
  | cons e m ih =>
    rw [Memory.wfFrom_cons] at h
    simp only [Memory.broadcastWrite]
    rw [Memory.wfFrom_cons]
    exact ⟨h.1, Bank.broadcastWrite_wf start values h.2.1, ih h.2.2⟩

theorem Memory.broadcastWrite_wf {m : Memory} (start : Nat) (values : List Word)
    (h : m.wf = true) : Memory.wf (m.broadcastWrite start values) = true :=
  Memory.broadcastWrite_wfFrom start values h

theorem emptyBank_wf : Bank.wf { hold := [], inp := [] } = true := rfl

/-- `AddBlock` keeps a bank's canonical form (rule R272). -/
theorem Bank.addBlock_wf {bk : Bank} {sp : Space} {start length : Nat} (h : bk.wf = true)
    (hlen : 1 ≤ length) (hend : start + length ≤ Config.spaceSize)
    (hfree : (bk.blocks sp).any (fun b => b.intersects start length) = false) :
    (bk.setBlocks sp (insertBlock (newBlock start length) (bk.blocks sp))).wf = true := by
  refine Bank.setBlocks_wf h (insertBlock_wf ((Bank.wf_iff bk).1 h sp) (Nat.zero_le _) ?_ ?_ ?_)
  · simpa using hlen
  · simpa using hend
  · intro c hc
    simpa using List.any_eq_false.1 hfree c hc

/-! ### Looking up after a change -/

@[simp] theorem Memory.bank_setBank_same {m : Memory} {a : Nat} {bk bk' : Bank}
    (h : m.bank a = some bk) : Memory.bank (m.setBank a bk') a = some bk' := by
  induction m with
  | nil => cases h
  | cons e m ih =>
    simp only [Memory.bank] at h
    simp only [Memory.setBank]
    split <;> rename_i he
    · simp [Memory.bank, he]
    · rw [if_neg he] at h
      simp [Memory.bank, he, ih h]

theorem Memory.bank_setBank_other {m : Memory} {a a' : Nat} {bk : Bank} (h : a' ≠ a) :
    Memory.bank (m.setBank a bk) a' = m.bank a' := by
  induction m with
  | nil => rfl
  | cons e m ih =>
    obtain ⟨x, b⟩ := e
    simp only [Memory.setBank, Memory.bank]
    split
    · simp only [Memory.bank]
      subst_vars
      rw [if_neg (Ne.symm h), if_neg (Ne.symm h)]
    · simp only [Memory.bank, ih]

theorem Memory.bank_broadcastWrite (m : Memory) (start : Nat) (values : List Word) (a : Nat) :
    Memory.bank (m.broadcastWrite start values) a =
      (m.bank a).map (fun bk => bk.broadcastWrite start values) := by
  induction m with
  | nil => rfl
  | cons e m ih =>
    obtain ⟨x, b⟩ := e
    simp only [Memory.broadcastWrite, Memory.bank]
    split
    · rfl
    · exact ih

end Sys2Proof.Machine
end

