-- ==== Sys2Proof/Laws/State.lean ====
section
/-! SUPPORT. One lemma per field and update, each true by `rfl`, so that no later proof unfolds a record
update. -/

namespace Sys2Proof.Machine

section
variable (s : State)

@[simp] theorem State.setRun_params (v : Bool) : (s.setRun v).params = s.params := rfl
@[simp] theorem State.setRun_run (v : Bool) : (s.setRun v).run = v := rfl
@[simp] theorem State.setRun_asm (v : Bool) : (s.setRun v).asm = s.asm := rfl
@[simp] theorem State.setRun_errOnMissingSlave (v : Bool) : (s.setRun v).errOnMissingSlave = s.errOnMissingSlave := rfl
@[simp] theorem State.setRun_slaves (v : Bool) : (s.setRun v).slaves = s.slaves := rfl
@[simp] theorem State.setRun_inputs (v : Bool) : (s.setRun v).inputs = s.inputs := rfl
@[simp] theorem State.setRun_outputs (v : Bool) : (s.setRun v).outputs = s.outputs := rfl

@[simp] theorem State.setAsm_params (asm : Assembler) : (s.setAsm asm).params = s.params := rfl
@[simp] theorem State.setAsm_run (asm : Assembler) : (s.setAsm asm).run = s.run := rfl
@[simp] theorem State.setAsm_asm (asm : Assembler) : (s.setAsm asm).asm = asm := rfl
@[simp] theorem State.setAsm_errOnMissingSlave (asm : Assembler) : (s.setAsm asm).errOnMissingSlave = s.errOnMissingSlave := rfl
@[simp] theorem State.setAsm_slaves (asm : Assembler) : (s.setAsm asm).slaves = s.slaves := rfl
@[simp] theorem State.setAsm_inputs (asm : Assembler) : (s.setAsm asm).inputs = s.inputs := rfl
@[simp] theorem State.setAsm_outputs (asm : Assembler) : (s.setAsm asm).outputs = s.outputs := rfl

@[simp] theorem State.setErrOnMissingSlave_params (v : Bool) : (s.setErrOnMissingSlave v).params = s.params := rfl
@[simp] theorem State.setErrOnMissingSlave_run (v : Bool) : (s.setErrOnMissingSlave v).run = s.run := rfl
@[simp] theorem State.setErrOnMissingSlave_asm (v : Bool) : (s.setErrOnMissingSlave v).asm = s.asm := rfl
@[simp] theorem State.setErrOnMissingSlave_errOnMissingSlave (v : Bool) : (s.setErrOnMissingSlave v).errOnMissingSlave = v := rfl
@[simp] theorem State.setErrOnMissingSlave_slaves (v : Bool) : (s.setErrOnMissingSlave v).slaves = s.slaves := rfl
@[simp] theorem State.setErrOnMissingSlave_inputs (v : Bool) : (s.setErrOnMissingSlave v).inputs = s.inputs := rfl
@[simp] theorem State.setErrOnMissingSlave_outputs (v : Bool) : (s.setErrOnMissingSlave v).outputs = s.outputs := rfl

@[simp] theorem State.setSlaves_params (m : Memory) : (s.setSlaves m).params = s.params := rfl
@[simp] theorem State.setSlaves_run (m : Memory) : (s.setSlaves m).run = s.run := rfl
@[simp] theorem State.setSlaves_asm (m : Memory) : (s.setSlaves m).asm = s.asm := rfl
@[simp] theorem State.setSlaves_errOnMissingSlave (m : Memory) : (s.setSlaves m).errOnMissingSlave = s.errOnMissingSlave := rfl
@[simp] theorem State.setSlaves_slaves (m : Memory) : (s.setSlaves m).slaves = m := rfl
@[simp] theorem State.setSlaves_inputs (m : Memory) : (s.setSlaves m).inputs = s.inputs := rfl
@[simp] theorem State.setSlaves_outputs (m : Memory) : (s.setSlaves m).outputs = s.outputs := rfl

@[simp] theorem State.setInputs_params (es : List Event) : (s.setInputs es).params = s.params := rfl
@[simp] theorem State.setInputs_run (es : List Event) : (s.setInputs es).run = s.run := rfl
@[simp] theorem State.setInputs_asm (es : List Event) : (s.setInputs es).asm = s.asm := rfl
@[simp] theorem State.setInputs_errOnMissingSlave (es : List Event) : (s.setInputs es).errOnMissingSlave = s.errOnMissingSlave := rfl
@[simp] theorem State.setInputs_slaves (es : List Event) : (s.setInputs es).slaves = s.slaves := rfl
@[simp] theorem State.setInputs_inputs (es : List Event) : (s.setInputs es).inputs = es := rfl
@[simp] theorem State.setInputs_outputs (es : List Event) : (s.setInputs es).outputs = s.outputs := rfl

@[simp] theorem State.emit_params (o : Output) : (s.emit o).params = s.params := rfl
@[simp] theorem State.emit_run (o : Output) : (s.emit o).run = s.run := rfl
@[simp] theorem State.emit_asm (o : Output) : (s.emit o).asm = s.asm := rfl
@[simp] theorem State.emit_errOnMissingSlave (o : Output) : (s.emit o).errOnMissingSlave = s.errOnMissingSlave := rfl
@[simp] theorem State.emit_slaves (o : Output) : (s.emit o).slaves = s.slaves := rfl
@[simp] theorem State.emit_inputs (o : Output) : (s.emit o).inputs = s.inputs := rfl
@[simp] theorem State.emit_outputs (o : Output) : (s.emit o).outputs = s.outputs ++ [o] := rfl

@[simp] theorem State.transmit_params (rsp : Instr) : (s.transmit rsp).params = s.params := rfl
@[simp] theorem State.transmit_run (rsp : Instr) : (s.transmit rsp).run = s.run := rfl
@[simp] theorem State.transmit_asm (rsp : Instr) : (s.transmit rsp).asm = s.asm := rfl
@[simp] theorem State.transmit_errOnMissingSlave (rsp : Instr) : (s.transmit rsp).errOnMissingSlave = s.errOnMissingSlave := rfl
@[simp] theorem State.transmit_slaves (rsp : Instr) : (s.transmit rsp).slaves = s.slaves := rfl
@[simp] theorem State.transmit_inputs (rsp : Instr) : (s.transmit rsp).inputs = s.inputs := rfl
@[simp] theorem State.transmit_outputs (rsp : Instr) : (s.transmit rsp).outputs = s.outputs ++ [.tx (encode rsp)] := rfl

@[simp] theorem State.result_params (r : HostResult) : (s.result r).params = s.params := rfl
@[simp] theorem State.result_run (r : HostResult) : (s.result r).run = s.run := rfl
@[simp] theorem State.result_asm (r : HostResult) : (s.result r).asm = s.asm := rfl
@[simp] theorem State.result_errOnMissingSlave (r : HostResult) : (s.result r).errOnMissingSlave = s.errOnMissingSlave := rfl
@[simp] theorem State.result_slaves (r : HostResult) : (s.result r).slaves = s.slaves := rfl
@[simp] theorem State.result_inputs (r : HostResult) : (s.result r).inputs = s.inputs := rfl
@[simp] theorem State.result_outputs (r : HostResult) : (s.result r).outputs = s.outputs ++ [.result r] := rfl

@[simp] theorem State.configError_params (e : ConfigError) : (s.configError e).params = s.params := rfl
@[simp] theorem State.configError_run (e : ConfigError) : (s.configError e).run = s.run := rfl
@[simp] theorem State.configError_asm (e : ConfigError) : (s.configError e).asm = s.asm := rfl
@[simp] theorem State.configError_errOnMissingSlave (e : ConfigError) : (s.configError e).errOnMissingSlave = s.errOnMissingSlave := rfl
@[simp] theorem State.configError_slaves (e : ConfigError) : (s.configError e).slaves = s.slaves := rfl
@[simp] theorem State.configError_inputs (e : ConfigError) : (s.configError e).inputs = s.inputs := rfl
@[simp] theorem State.configError_outputs (e : ConfigError) : (s.configError e).outputs = s.outputs ++ [.result (.error e)] := rfl

@[simp] theorem State.respond_params (req rsp : Instr) : (s.respond req rsp).params = s.params := rfl
@[simp] theorem State.respond_run (req rsp : Instr) : (s.respond req rsp).run = s.run := rfl
@[simp] theorem State.respond_asm (req rsp : Instr) : (s.respond req rsp).asm = s.asm := rfl
@[simp] theorem State.respond_errOnMissingSlave (req rsp : Instr) : (s.respond req rsp).errOnMissingSlave = s.errOnMissingSlave := rfl
@[simp] theorem State.respond_slaves (req rsp : Instr) : (s.respond req rsp).slaves = s.slaves := rfl
@[simp] theorem State.respond_inputs (req rsp : Instr) : (s.respond req rsp).inputs = s.inputs := rfl
@[simp] theorem State.respond_outputs (req rsp : Instr) :
    (s.respond req rsp).outputs =
      s.outputs ++ [.requestHandled req.addr req.pdu rsp.pdu, .tx (encode rsp)] := by
  simp [State.respond]

@[simp] theorem State.takeException_params (req : Instr) (code : ExcCode) :
    (s.takeException req code).params = s.params := rfl
@[simp] theorem State.takeException_run (req : Instr) (code : ExcCode) :
    (s.takeException req code).run = s.run := rfl
@[simp] theorem State.takeException_asm (req : Instr) (code : ExcCode) :
    (s.takeException req code).asm = s.asm := rfl
@[simp] theorem State.takeException_errOnMissingSlave (req : Instr) (code : ExcCode) :
    (s.takeException req code).errOnMissingSlave = s.errOnMissingSlave := rfl
@[simp] theorem State.takeException_slaves (req : Instr) (code : ExcCode) :
    (s.takeException req code).slaves = s.slaves := rfl
@[simp] theorem State.takeException_inputs (req : Instr) (code : ExcCode) :
    (s.takeException req code).inputs = s.inputs := rfl

@[simp] theorem State.missingSlave_params (req : Instr) : (s.missingSlave req).params = s.params := by
  unfold State.missingSlave; split <;> rfl
@[simp] theorem State.missingSlave_run (req : Instr) : (s.missingSlave req).run = s.run := by
  unfold State.missingSlave; split <;> rfl
@[simp] theorem State.missingSlave_asm (req : Instr) : (s.missingSlave req).asm = s.asm := by
  unfold State.missingSlave; split <;> rfl
@[simp] theorem State.missingSlave_errOnMissingSlave (req : Instr) : (s.missingSlave req).errOnMissingSlave = s.errOnMissingSlave := by
  unfold State.missingSlave; split <;> rfl
@[simp] theorem State.missingSlave_slaves (req : Instr) : (s.missingSlave req).slaves = s.slaves := by
  unfold State.missingSlave; split <;> rfl
@[simp] theorem State.missingSlave_inputs (req : Instr) : (s.missingSlave req).inputs = s.inputs := by
  unfold State.missingSlave; split <;> rfl

@[simp] theorem State.resetEvent_params : s.resetEvent.params = s.params := rfl
@[simp] theorem State.resetEvent_run : s.resetEvent.run = (State.resetOf s.params).run := rfl
@[simp] theorem State.resetEvent_asm : s.resetEvent.asm = (State.resetOf s.params).asm := rfl
@[simp] theorem State.resetEvent_errOnMissingSlave : s.resetEvent.errOnMissingSlave = (State.resetOf s.params).errOnMissingSlave := rfl
@[simp] theorem State.resetEvent_slaves : s.resetEvent.slaves = (State.resetOf s.params).slaves := rfl
@[simp] theorem State.resetEvent_inputs : s.resetEvent.inputs = s.inputs := rfl
@[simp] theorem State.resetEvent_outputs : s.resetEvent.outputs = s.outputs := rfl

end

end Sys2Proof.Machine
end

