-- ==== Sys2Proof/Laws/Ops.lean ====
section
/-! SUPPORT. For each shared operation, once, everything it can do. Later proofs cite these lemmas
instead of unfolding the operations. -/

namespace Sys2Proof.Machine

/-! ### Blocks and banks -/

/-- A block `resolve` finds is one of the blocks and contains the range (rule R274). -/
theorem resolve_cases {bs : List Block} {start count o : Nat} {b : Block}
    (h : resolve bs start count = some (b, o)) :
    b ∈ bs ∧ b.contains start count = true ∧ o = start - b.start := by
  induction bs with
  | nil => simp [resolve] at h
  | cons c cs ih =>
    simp only [resolve] at h
    split at h
    case isTrue hc =>
      cases h
      exact ⟨by simp, hc, rfl⟩
    case isFalse =>
      obtain ⟨hm, hc, ho⟩ := ih h
      exact ⟨by simp [hm], hc, ho⟩

/-- No block contains the range if `resolve` finds none (rule R274). -/
theorem resolve_none {bs : List Block} {start count : Nat} (h : resolve bs start count = none) :
    ∀ b ∈ bs, b.contains start count = false := by
  induction bs with
  | nil => simp
  | cons c cs ih =>
    simp only [resolve] at h
    split at h
    case isTrue => cases h
    case isFalse hc =>
      intro b hb
      rcases List.mem_cons.1 hb with rfl | hb
      · simpa using hc
      · exact ih h b hb

/-- A store succeeds exactly where a read of as many registers does (rules R275 and R276). -/
theorem writeBlocks_isSome (bs : List Block) (start : Nat) (values : List Word) :
    (writeBlocks bs start values).isSome = (resolve bs start values.length).isSome := by
  induction bs with
  | nil => rfl
  | cons b bs ih =>
    simp only [writeBlocks, resolve]
    split
    · rfl
    · rw [← ih]
      cases writeBlocks bs start values <;> rfl

/-- A contained range reads as many words as it names (rule R275). -/
theorem Block.load_length {b : Block} {start count : Nat} (h : b.contains start count = true) :
    (b.load (start - b.start) count).length = count := by
  rw [Block.contains_iff] at h
  simp only [Block.load, List.length_take, List.length_drop]
  simp only [Block.length] at h
  omega

/-- A read that succeeds gives `count` words of one block of the slave (rule R275). -/
theorem Memory.read_cases {m : Memory} {a start count : Nat} {sp : Space} {vs : List Word}
    (h : m.read a sp start count = .ok vs) :
    ∃ bk b, m.bank a = some bk ∧ b ∈ bk.blocks sp ∧ b.contains start count = true ∧
      vs = b.load (start - b.start) count ∧ vs.length = count := by
  unfold Memory.read at h
  split at h
  case h_2 => cases h
  case h_1 bk hbk =>
    unfold Bank.read at h
    split at h
    case h_2 => cases h
    case h_1 ws hws =>
      cases h
      unfold readBlocks at hws
      split at hws
      case h_2 => cases hws
      case h_1 b o hr =>
        cases hws
        obtain ⟨hm, hc, rfl⟩ := resolve_cases hr
        exact ⟨bk, b, hbk, hm, hc, rfl, Block.load_length hc⟩

/-! ### The dispatcher -/

/-- Where a request goes (rules R204 to R206). -/
theorem State.route_cases (s : State) (req : Instr) (onBroadcast onSlave : State) :
    (req.addr = Config.addrBroadcast ∧ s.route req onBroadcast onSlave = onBroadcast) ∨
    (req.addr ≠ Config.addrBroadcast ∧ s.registered req.addr.toNat = true ∧
      s.route req onBroadcast onSlave = onSlave) ∨
    (req.addr ≠ Config.addrBroadcast ∧ s.registered req.addr.toNat = false ∧
      s.route req onBroadcast onSlave = s.missingSlave req) := by
  unfold State.route
  by_cases h : req.addr = Config.addrBroadcast
  · simp [h]
  · cases hr : s.registered req.addr.toNat <;> simp [h]

/-- A frame to a missing slave emits one error hook or nothing (rules R205 and R206). -/
theorem State.missingSlave_cases (s : State) (req : Instr) :
    (s.errOnMissingSlave = false ∧ s.missingSlave req = s) ∨
    (s.errOnMissingSlave = true ∧
      s.missingSlave req = s.emit (.errorHook .unknownSlave (encode req))) := by
  unfold State.missingSlave
  cases s.errOnMissingSlave <;> simp

/-- What the check of a read's operands answers (rules R246 and R247). -/
theorem readRange_cases (ops : ReadOperands) :
    (readRange ops = .error .illegalDataValue) ∨
    (∃ start count, ops = .fields start count ∧ count.toNat ≠ 0 ∧
      readRange ops = .ok (start, count.toNat)) := by
  cases ops with
  | malformed p => exact .inl rfl
  | fields start count =>
    by_cases h : count.toNat = 0
    · exact .inl (by simp only [readRange, h, if_true])
    · exact .inr ⟨start, count, rfl, h, by simp only [readRange, h, if_false]⟩

/-- What the check of a write's operands answers (rules R246 and R247). -/
theorem writeRange_cases (ops : WriteOperands) :
    (writeRange ops = .error .illegalDataValue) ∨
    (∃ start values, ops = .fields start values ∧ values.length ≠ 0 ∧
      writeRange ops = .ok (start, values)) := by
  cases ops with
  | malformed p => exact .inl rfl
  | fields start values =>
    by_cases h : values.length = 0
    · exact .inl (by simp only [writeRange, h, if_true])
    · exact .inr ⟨start, values, rfl, h, by simp only [writeRange, h, if_false]⟩

/-- A read takes an exception, or answers with the words of a contained range of at most 125
registers (rules R240 to R242). -/
theorem State.executeRead_cases (s : State) (req : Instr) (sp : Space) (ops : ReadOperands)
    (answer : List Word → Instr) :
    (∃ code, s.executeRead req sp ops answer = s.takeException req code) ∨
    (∃ start count vs, ops = .fields start count ∧ count.toNat ≠ 0 ∧
      count.toNat ≤ Config.maxReadCount ∧
      s.slaves.read req.addr.toNat sp start.toNat count.toNat = .ok vs ∧
      s.internalFault req.addr req.pdu = false ∧
      s.executeRead req sp ops answer = s.respond req (answer vs)) := by
  unfold State.executeRead
  rcases readRange_cases ops with h | ⟨start, count, hops, hc, h⟩
  · exact .inl ⟨_, by rw [h]⟩
  · simp only [h]
    cases hr : s.slaves.read req.addr.toNat sp start.toNat count.toNat with
    | error e => exact .inl ⟨excOfBankError e, by simp only⟩
    | ok vs =>
      by_cases hm : Config.maxReadCount < count.toNat
      · exact .inl ⟨.illegalDataValue, by simp only [hm, if_true]⟩
      · cases hf : s.internalFault req.addr req.pdu with
        | true => exact .inl ⟨.slaveDeviceFailure, by simp [hm]⟩
        | false =>
          exact .inr ⟨start, count, vs, hops, hc, by omega, hr, rfl, by simp [hm]⟩

/-- A write takes an exception with no register written, or stores its values and answers with start
and count (rules R240 and R243). -/
theorem State.executeWrite_cases (s : State) (req : Instr) (ops : WriteOperands) :
    (∃ code, s.executeWrite req ops = s.takeException req code) ∨
    (∃ start values m, ops = .fields start values ∧ values.length ≠ 0 ∧
      s.slaves.write req.addr.toNat .holding start.toNat values = .ok m ∧
      s.internalFault req.addr req.pdu = false ∧
      s.executeWrite req ops =
        (s.setSlaves m).respond req
          (.wmrRsp req.addr start (BitVec.ofNat 16 values.length))) := by
  unfold State.executeWrite
  rcases writeRange_cases ops with h | ⟨start, values, hops, hv, h⟩
  · exact .inl ⟨_, by rw [h]⟩
  · simp only [h]
    cases hr : s.slaves.write req.addr.toNat .holding start.toNat values with
    | error e => exact .inl ⟨excOfBankError e, by simp only⟩
    | ok m =>
      cases hf : s.internalFault req.addr req.pdu with
      | true => exact .inl ⟨.slaveDeviceFailure, by simp⟩
      | false => exact .inr ⟨start, values, m, hops, hv, hr, rfl, by simp⟩

/-- A broadcast write changes nothing, or every slave that contains its range (rule R204). -/
theorem State.executeBroadcastWrite_cases (s : State) (ops : WriteOperands) :
    (s.executeBroadcastWrite ops = s) ∨
    (∃ start values, ops = .fields start values ∧ values.length ≠ 0 ∧
      s.executeBroadcastWrite ops =
        s.setSlaves (s.slaves.broadcastWrite start.toNat values)) := by
  unfold State.executeBroadcastWrite
  rcases writeRange_cases ops with h | ⟨start, values, hops, hv, h⟩
  · exact .inl (by rw [h])
  · exact .inr ⟨start, values, hops, hv, by rw [h]⟩

/-! ### The assembler -/

/-- What a byte does (rules R162 to R165 and R173). -/
theorem State.rxByte_cases (s : State) (b : Byte) :
    (s.run = false ∧ s.rxByte b = s) ∨
    (s.run = true ∧ s.asm.state = .idle ∧ s.rxByte b = s.setAsm (Assembler.first b)) ∨
    (s.run = true ∧ s.asm.state = .receiving ∧ s.params.tIC ≤ s.asm.sil ∧
      s.rxByte b = (s.emit (.asmDrop .interCharGap)).setAsm (Assembler.first b)) ∨
    (s.run = true ∧ s.asm.state = .receiving ∧ s.asm.sil < s.params.tIC ∧
      s.asm.len < Config.maxFrame ∧
      s.rxByte b = s.setAsm { s.asm with buf := s.asm.buf ++ [b], sil := 0 }) ∨
    (s.run = true ∧ s.asm.state = .receiving ∧ s.asm.sil < s.params.tIC ∧
      Config.maxFrame ≤ s.asm.len ∧
      s.rxByte b = (s.emit (.asmDrop .oversize)).setAsm Assembler.empty) := by
  unfold State.rxByte
  cases hr : s.run with
  | false => simp
  | true =>
    cases hs : s.asm.state with
    | idle => simp
    | receiving =>
      by_cases hg : s.params.tIC ≤ s.asm.sil
      · simp [hg]
      · by_cases hl : s.asm.len < Config.maxFrame
        · simp [hg, hl, Nat.lt_of_not_le hg]
        · simp [hg, hl, Nat.lt_of_not_le hg, Nat.le_of_not_lt hl]

/-- When a tick ends a frame (rules R168 and R169). -/
theorem State.frameEnds_iff (s : State) :
    s.frameEnds = true ↔
      s.run = true ∧ s.asm.state = .receiving ∧ s.params.tIF ≤ s.asm.sil + 1 := by
  simp [State.frameEnds, and_assoc]

/-- What a tick that ends no frame does (rules R166, R167 and R173). -/
theorem State.countTick_cases (s : State) :
    ((s.run = false ∨ s.asm.state = .idle) ∧ s.countTick = s) ∨
    (s.run = true ∧ s.asm.state = .receiving ∧
      s.countTick = s.setAsm { s.asm with sil := s.asm.sil + 1 }) := by
  unfold State.countTick
  cases hr : s.run with
  | false => simp
  | true => cases hs : s.asm.state <;> simp

end Sys2Proof.Machine
end

