-- ==== Sys2Proof/Laws/PerInstr.lean ====
section
/-! SUPPORT. Statements made of every instruction as syntax, one lemma a constructor. -/

namespace Sys2Proof.Laws.FrameShape

open Sys2Proof Sys2Proof.Machine

/-- The frame of a well-formed instruction starts with its address byte, has its function byte next, and
has 4 to 256 bytes (rules R100 and R101). -/
def Statement (i : Instr) : Prop :=
  i.wellFormed = true →
    (encode i).head? = some i.addr ∧ (encode i)[1]? = i.pdu.head? ∧
    4 ≤ (encode i).length ∧ (encode i).length ≤ Config.maxFrame

/-- A PDU of 1 to 253 bytes is all it takes. -/
theorem of_pdu {i : Instr} (h : i.wellFormed = true → 1 ≤ i.pdu.length ∧ i.pdu.length ≤ 253) :
    Statement i := by
  intro hw
  obtain ⟨h1, h2⟩ := h hw
  have hl : (encode i).length = i.pdu.length + 3 := by simp [encode, crcAppend]
  refine ⟨by simp [encode, crcAppend], ?_, ?_⟩
  · match hp : i.pdu, h1 with
    | b :: bs, _ => simp [encode, crcAppend, hp]
  · simp only [Config.maxFrame]
    omega

theorem rhr (a : Byte) (ops : ReadOperands) : Statement (.rhr a ops) := by
  refine of_pdu fun h => ?_
  cases ops <;> simp_all [Instr.wellFormed, ReadOperands.wellFormed, payloadFits, Instr.pdu,
    encodeReadOperands, Config.maxPayload]
  omega

theorem rir (a : Byte) (ops : ReadOperands) : Statement (.rir a ops) := by
  refine of_pdu fun h => ?_
  cases ops <;> simp_all [Instr.wellFormed, ReadOperands.wellFormed, payloadFits, Instr.pdu,
    encodeReadOperands, Config.maxPayload]
  omega

theorem wmr (a : Byte) (ops : WriteOperands) : Statement (.wmr a ops) := by
  refine of_pdu fun h => ?_
  cases ops <;> simp_all [Instr.wellFormed, WriteOperands.wellFormed, payloadFits, Instr.pdu,
    encodeWriteOperands, Config.maxPayload, Config.maxWriteCount] <;> omega

theorem wsr (a : Byte) (p : List Byte) : Statement (.wsr a p) := by
  refine of_pdu fun h => ?_
  simp_all [Instr.wellFormed, payloadFits, Instr.pdu, Config.maxPayload]
  omega

theorem illegal (a fc : Byte) (p : List Byte) : Statement (.illegal a fc p) := by
  refine of_pdu fun h => ?_
  simp_all [Instr.wellFormed, payloadFits, Instr.pdu, Config.maxPayload]
  omega

theorem rhrRsp (a : Byte) (values : List Word) : Statement (.rhrRsp a values) := by
  refine of_pdu fun h => ?_
  simp_all [Instr.wellFormed, valuesFit, Instr.pdu, encodeReadResponse, Config.maxReadCount]
  omega

theorem rirRsp (a : Byte) (values : List Word) : Statement (.rirRsp a values) := by
  refine of_pdu fun h => ?_
  simp_all [Instr.wellFormed, valuesFit, Instr.pdu, encodeReadResponse, Config.maxReadCount]
  omega

theorem wmrRsp (a : Byte) (start count : Word) : Statement (.wmrRsp a start count) := by
  refine of_pdu fun _ => ?_
  simp [Instr.pdu]

theorem exc (a fc : Byte) (code : ExcCode) : Statement (.exc a fc code) := by
  refine of_pdu fun _ => ?_
  simp [Instr.pdu]

end Sys2Proof.Laws.FrameShape
end

