-- ==== Sys2Proof/Laws/Step.lean ====
section
/-! SUPPORT. What a step can do: one lemma for taking an event, one for a tick, and the invariant of the
assembler in each of its states. -/

namespace Sys2Proof.Machine

/-- A step takes the next event (rule R7). -/
theorem step_cons {s : State} {e : Event} {es : List Event} (h : s.inputs = e :: es) :
    step s = handle e (s.setInputs es) := by
  unfold step
  rw [h]

theorem step_nil {s : State} (h : s.inputs = []) : step s = .next s := by
  unfold step
  rw [h]

theorem steps_succ {s t : State} {k : Nat} (h : step s = .next t) : steps (k + 1) s = steps k t := by
  simp only [steps, h]

theorem steps_add {j k : Nat} {s t : State} (h : steps j s = .next t) :
    steps (j + k) s = steps k t := by
  induction j generalizing s with
  | zero =>
    simp only [steps] at h
    cases h
    simp
  | succ j ih =>
    simp only [steps] at h
    rw [show j + 1 + k = j + k + 1 by omega]
    simp only [steps]
    cases hs : step s with
    | next s' => rw [hs] at h; exact ih h
    | fault r => rw [hs] at h; cases h
    | refused r => rw [hs] at h; cases h

/-- What a tick does (rules R166 to R169 and R202): it counts, drops a short frame, reports a corrupt
one, or runs the request of a frame whose CRC matches. -/
theorem tickEvent_cases {s t : State} (h : tickEvent s = .next t) :
    (s.frameEnds = false ∧ t = s.countTick) ∨
    (s.frameEnds = true ∧ s.asm.len < Config.minFrame ∧ t = s.dropShort) ∨
    (s.frameEnds = true ∧ Config.minFrame ≤ s.asm.len ∧ verify s.asm.buf = false ∧
      t = (s.setAsm Assembler.empty).emit (.errorHook .crcMismatch s.asm.buf)) ∨
    (s.frameEnds = true ∧ Config.minFrame ≤ s.asm.len ∧ verify s.asm.buf = true ∧
      exec (decodeVerified s.asm.buf) (s.setAsm Assembler.empty) = .next t) := by
  unfold tickEvent at h
  split at h
  case isFalse hf =>
    cases h
    exact .inl ⟨by simpa using hf, rfl⟩
  case isTrue hf =>
    split at h
    case isTrue hl =>
      cases h
      exact .inr (.inl ⟨hf, hl, rfl⟩)
    case isFalse hl =>
      unfold dispatch at h
      split at h
      case isTrue hv => exact .inr (.inr (.inr ⟨hf, Nat.le_of_not_lt hl, hv, h⟩))
      case isFalse hv =>
        cases h
        exact .inr (.inr (.inl ⟨hf, Nat.le_of_not_lt hl, by simpa using hv, rfl⟩))

/-- `dispatch` of a frame the decoder accepts runs the instruction it reads (rule R201). -/
theorem dispatch_of_decode {f : List Byte} {i : Instr} (s : State) (h : decode f = .ok i) :
    dispatch f s = exec i s := by
  unfold decode at h
  cases he : frameError f with
  | some e => simp [he] at h
  | none =>
    rw [he] at h
    have hv : verify f = true := by
      unfold frameError at he
      split at he <;> [cases he; skip]
      split at he <;> [cases he; skip]
      split at he
      · assumption
      · cases he
    have hd : decodeVerified f = i := by simpa using h
    rw [dispatch, if_pos hv, hd]

theorem Assembler.sound_idle {p : Params} {asm : Assembler} (h : asm.state = .idle) :
    asm.sound p = true ↔ asm.buf = [] ∧ asm.sil = 0 := by
  simp [Assembler.sound, h]

theorem Assembler.sound_receiving {p : Params} {asm : Assembler} (h : asm.state = .receiving) :
    asm.sound p = true ↔ asm.buf ≠ [] ∧ asm.len ≤ Config.maxFrame ∧ asm.sil < p.tIF := by
  simp [Assembler.sound, h]

theorem Assembler.sound_empty (p : Params) : Assembler.empty.sound p = true := by
  simp [Assembler.sound, Assembler.empty]

theorem State.sound_iff (s : State) :
    s.sound = true ↔ s.params.legal = true ∧ s.asm.sound s.params = true ∧ s.slaves.wf = true := by
  simp [State.sound, and_assoc]

end Sys2Proof.Machine
end

