-- ==== Sys2Proof/Tests/Slice0.lean ====
section
/-! SUPPORT. The model's own tests. Expected results are the vectors of 95_test_vectors.md, named by their
ids, or bytes written out from the rule cited. The witnesses at the end show that the hypotheses of each
obligation can be met together. -/

namespace Sys2Proof.Tests

set_option Elab.async false

open Sys2Proof Sys2Proof.Machine Sys2Proof.Claims

/-! ### A small machine -/

def bank5 : Bank :=
  { hold := [{ start := 0, data := [0x0080, 0x0002, 0x0005, 0x2201] }], inp := [] }

def bank7 : Bank := { hold := [], inp := [{ start := 0x20, data := [0x00EB] }] }

def bank9 : Bank :=
  { hold := [{ start := 0x10, data := [0x0000] }, { start := 0x20, data := List.replicate 10 0x0000 }]
    inp := [] }

/-- 200 registers in each space, for the limits of rules R248 and R249. -/
def bank17 : Bank :=
  { hold := [{ start := 0x100, data := (List.range 200).map (fun k => BitVec.ofNat 16 (0x100 + k)) }]
    inp := [{ start := 0x100, data := List.replicate 200 0x0000 }] }

/-- The banks of sections 2.3 and 2.4 of the vectors, running and `Idle`. -/
def bench : State :=
  { State.reset with run := true, slaves := [(5, bank5), (7, bank7), (9, bank9), (17, bank17)] }

/-- The same with an oracle that answers true for one request. -/
def faulty (a : Byte) (pdu : List Byte) : State :=
  { bench with params := { bench.params with internalFault := [(a, pdu)] } }

/-- The machine one tick short of the silence that completes the frame `f`. -/
def received (s : State) (f : List Byte) : State :=
  { s with asm := { state := .receiving, buf := f, sil := s.params.tIF - 1 }, inputs := [.tick] }

/-- The machine with one event to come. -/
def facing (s : State) (e : Event) : State := { s with inputs := [e] }

def nextState : Host.Outcome State Fault Refusal → Option State
  | .next s => some s
  | .fault _ => none
  | .refused _ => none

/-- What a state's next step emits, if the bench had emitted nothing. -/
def outputsAfter (s : State) : Option (List Output) := (nextState (step s)).map (·.outputs)

/-- One register after a state's next step. -/
def registerAfter (s : State) (a : Nat) (sp : Space) (i : Nat) : Option Word :=
  (nextState (step s)).bind (fun t => t.slaves.reg a sp i)

/-! ### Well-formedness: one ill-formed term for each check -/

theorem test_wf_read_malformed_of_four_bytes :
    (Instr.rhr 5 (.malformed [0, 0, 0, 4])).wellFormed = false := by decide +kernel

theorem test_wf_read_malformed_too_long :
    (Instr.rir 5 (.malformed (List.replicate 253 0))).wellFormed = false := by decide +kernel

theorem test_wf_write_of_124_values :
    (Instr.wmr 5 (.fields 0 (List.replicate 124 0))).wellFormed = false := by decide +kernel

theorem test_wf_write_malformed_of_write_shape :
    (Instr.wmr 5 (.malformed [0, 0x10, 0, 1, 2, 0x80, 0])).wellFormed = false := by decide +kernel

theorem test_wf_write_malformed_too_long :
    (Instr.wmr 5 (.malformed (List.replicate 253 0))).wellFormed = false := by decide +kernel

theorem test_wf_write_single_too_long :
    (Instr.wsr 5 (List.replicate 253 0)).wellFormed = false := by decide +kernel

theorem test_wf_illegal_of_a_named_function :
    (Instr.illegal 5 0x03 []).wellFormed = false ∧ (Instr.illegal 5 0x04 []).wellFormed = false ∧
    (Instr.illegal 5 0x10 []).wellFormed = false ∧ (Instr.illegal 5 0x06 []).wellFormed = false := by
  decide +kernel

theorem test_wf_illegal_too_long :
    (Instr.illegal 5 0x41 (List.replicate 253 0)).wellFormed = false := by decide +kernel

theorem test_wf_read_response_without_values :
    (Instr.rhrRsp 5 []).wellFormed = false ∧ (Instr.rirRsp 5 []).wellFormed = false := by
  decide +kernel

theorem test_wf_read_response_of_126_values :
    (Instr.rhrRsp 5 (List.replicate 126 0)).wellFormed = false ∧
    (Instr.rirRsp 5 (List.replicate 126 0)).wellFormed = false := by decide +kernel

theorem test_wf_write_response_of_0_or_124_registers :
    (Instr.wmrRsp 9 0x10 0).wellFormed = false ∧ (Instr.wmrRsp 9 0x10 124).wellFormed = false := by
  decide +kernel

theorem test_wf_exception_without_bit_7 :
    (Instr.exc 5 0x03 .illegalFunction).wellFormed = false := by decide +kernel

/-! ### Decoding: words written out from rules R103 to R107 -/

/-- F1. -/
theorem test_decode_rhr :
    decode [0x05, 0x03, 0x00, 0x00, 0x00, 0x04, 0x45, 0x8D] = .ok (.rhr 5 (.fields 0 4)) := by
  decide +kernel

/-- F12. -/
theorem test_decode_rir :
    decode [0x07, 0x04, 0x00, 0x20, 0x00, 0x01, 0x30, 0x66] = .ok (.rir 7 (.fields 0x20 1)) := by
  decide +kernel

/-- F19. -/
theorem test_decode_wmr :
    decode [0x09, 0x10, 0x00, 0x20, 0x00, 0x02, 0x04, 0x80, 0x14, 0x00, 0x02, 0x33, 0xD2] =
      .ok (.wmr 9 (.fields 0x20 [0x8014, 0x0002])) := by
  decide +kernel

/-- F29. -/
theorem test_decode_wsr :
    decode [0x09, 0x06, 0x00, 0x10, 0x80, 0x00, 0xE8, 0x87] = .ok (.wsr 9 [0x00, 0x10, 0x80, 0x00]) := by
  decide +kernel

/-- F32 and F31: bit 7 set, and the shortest frame. -/
theorem test_decode_illegal :
    decode [0x05, 0x83, 0x02, 0x81, 0x30] = .ok (.illegal 5 0x83 [0x02]) ∧
    decode [0x05, 0x00, 0x02, 0xE0] = .ok (.illegal 5 0x00 []) := by
  decide +kernel

/-- The response of F3. -/
theorem test_decode_rhrRsp :
    decodeResponse [0x05, 0x03, 0x02, 0x22, 0x01, 0x90, 0xE4] = .ok (.rhrRsp 5 [0x2201]) := by
  decide +kernel

/-- The response of F12. -/
theorem test_decode_rirRsp :
    decodeResponse [0x07, 0x04, 0x02, 0x00, 0xEB, 0x71, 0x7F] = .ok (.rirRsp 7 [0x00EB]) := by
  decide +kernel

/-- The response of F19. -/
theorem test_decode_wmrRsp :
    decodeResponse [0x09, 0x10, 0x00, 0x20, 0x00, 0x02, 0x41, 0x4A] = .ok (.wmrRsp 9 0x20 2) := by
  decide +kernel

/-- The response of F6. -/
theorem test_decode_exc :
    decodeResponse [0x05, 0x83, 0x02, 0x81, 0x30] = .ok (.exc 5 0x83 .illegalDataAddress) := by
  decide +kernel

/-- F15, F22, F24 and F43: payloads that do not have their function's shape (rule R246). -/
theorem test_decode_malformed :
    decode [0x05, 0x03, 0x42, 0xE1] = .ok (.rhr 5 (.malformed [])) ∧
    decode [0x09, 0x10, 0x00, 0x10, 0x00, 0x02, 0x02, 0x12, 0x34, 0xCE, 0x33] =
      .ok (.wmr 9 (.malformed [0x00, 0x10, 0x00, 0x02, 0x02, 0x12, 0x34])) ∧
    decode [0x09, 0x10, 0x00, 0x10, 0x00, 0x01, 0x02, 0x12, 0x80, 0xCE] =
      .ok (.wmr 9 (.malformed [0x00, 0x10, 0x00, 0x01, 0x02, 0x12])) ∧
    decode [0x11, 0x10, 0x01, 0x00, 0x00, 0x80, 0x00, 0x44, 0x91] =
      .ok (.wmr 0x11 (.malformed [0x01, 0x00, 0x00, 0x80, 0x00])) := by
  decide +kernel

/-- Rule R101 and K13: too short, too long, and the CRC bytes in the wrong order. -/
theorem test_decode_rejects_by_name :
    decode [0x05, 0x03, 0x42] = .error .tooShort ∧
    decode (List.replicate 257 0x55) = .error .tooLong ∧
    decode [0x01, 0x03, 0x00, 0x00, 0x00, 0x01, 0x0A, 0x84] = .error .crcMismatch := by
  decide +kernel

/-- Rules R105 to R107, R117 and R301: frames no response row matches. -/
theorem test_decode_response_rejects_by_name :
    decodeResponse [0x09, 0x06, 0x00, 0x10, 0x80, 0x00, 0xE8, 0x87] = .error .noSuchResponse ∧
    decodeResponse [0x05, 0x03, 0x42, 0xE1] = .error .badResponsePayload ∧
    decodeResponse (crcAppend [0x05, 0x83, 0x05]) = .error .noSuchException := by
  decide +kernel

/-! ### The CRC generator -/

/-- S1, with its running register, and K10. -/
theorem test_crc_running_register :
    crcUpdate 0xFFFF 0x01 = 0x807E ∧ crcUpdate 0x807E 0x03 = 0x2140 ∧ crcUpdate 0x2140 0x00 = 0xF020 ∧
    crcUpdate 0xF020 0x00 = 0xD8F1 ∧ crcUpdate 0xD8F1 0x00 = 0x8419 ∧ crcUpdate 0x8419 0x01 = 0x0A84 := by
  decide +kernel

/-- K1, K7, K8 and K11. -/
theorem test_crc_vectors :
    crc16 [] = 0xFFFF ∧ crc16 [0, 0, 0, 0] = 0x2400 ∧
    crc16 [0x31, 0x32, 0x33, 0x34, 0x35, 0x36, 0x37, 0x38, 0x39] = 0x4B37 ∧
    crcUpdate 0x0100 0x00 = 0x0001 := by
  decide +kernel

/-- K15. -/
theorem test_verify_short :
    verify [0x84, 0x0A] = false ∧ verify [0xFF, 0xFF] = true ∧ verify [0xFF] = false ∧
    verify [] = false := by
  decide +kernel

/-! ### One step of each instruction -/

/-- F3: the last register of a block. -/
theorem test_rhr_last_register :
    outputsAfter (received bench [0x05, 0x03, 0x00, 0x03, 0x00, 0x01, 0x75, 0x8E]) =
      some [.requestHandled 5 [0x03, 0x00, 0x03, 0x00, 0x01] [0x03, 0x02, 0x22, 0x01],
        .tx [0x05, 0x03, 0x02, 0x22, 0x01, 0x90, 0xE4]] := by
  decide +kernel

/-- F38: the address check before the count limit. -/
theorem test_rhr_address_before_limit :
    outputsAfter (received bench [0x11, 0x03, 0x01, 0x00, 0x00, 0xC9, 0x86, 0xF0]) =
      some [.requestHandled 0x11 [0x03, 0x01, 0x00, 0x00, 0xC9] [0x83, 0x02],
        .tx [0x11, 0x83, 0x02, 0xC1, 0x34]] := by
  decide +kernel

/-- F12. -/
theorem test_rir :
    outputsAfter (received bench [0x07, 0x04, 0x00, 0x20, 0x00, 0x01, 0x30, 0x66]) =
      some [.requestHandled 7 [0x04, 0x00, 0x20, 0x00, 0x01] [0x04, 0x02, 0x00, 0xEB],
        .tx [0x07, 0x04, 0x02, 0x00, 0xEB, 0x71, 0x7F]] := by
  decide +kernel

/-- F14: the holding space is not consulted. -/
theorem test_rir_not_holding :
    outputsAfter (received bench [0x05, 0x04, 0x00, 0x00, 0x00, 0x01, 0x30, 0x4E]) =
      some [.requestHandled 5 [0x04, 0x00, 0x00, 0x00, 0x01] [0x84, 0x02],
        .tx [0x05, 0x84, 0x02, 0x83, 0x00]] := by
  decide +kernel

/-- F19. -/
theorem test_wmr :
    outputsAfter (received bench
      [0x09, 0x10, 0x00, 0x20, 0x00, 0x02, 0x04, 0x80, 0x14, 0x00, 0x02, 0x33, 0xD2]) =
      some [.requestHandled 9 [0x10, 0x00, 0x20, 0x00, 0x02, 0x04, 0x80, 0x14, 0x00, 0x02]
          [0x10, 0x00, 0x20, 0x00, 0x02],
        .tx [0x09, 0x10, 0x00, 0x20, 0x00, 0x02, 0x41, 0x4A]] ∧
    registerAfter (received bench
      [0x09, 0x10, 0x00, 0x20, 0x00, 0x02, 0x04, 0x80, 0x14, 0x00, 0x02, 0x33, 0xD2])
      9 .holding 0x21 = some 0x0002 := by
  decide +kernel

/-- D11: a broadcast write reaches slave 5 and leaves its other registers. -/
theorem test_wmr_broadcast :
    outputsAfter (received bench
      [0x00, 0x10, 0x00, 0x02, 0x00, 0x02, 0x04, 0x11, 0x11, 0x22, 0x22, 0xBB, 0x0A]) = some [] ∧
    registerAfter (received bench
      [0x00, 0x10, 0x00, 0x02, 0x00, 0x02, 0x04, 0x11, 0x11, 0x22, 0x22, 0xBB, 0x0A])
      5 .holding 2 = some 0x1111 ∧
    registerAfter (received bench
      [0x00, 0x10, 0x00, 0x02, 0x00, 0x02, 0x04, 0x11, 0x11, 0x22, 0x22, 0xBB, 0x0A])
      5 .holding 1 = some 0x0002 := by
  decide +kernel

/-- F29. -/
theorem test_wsr :
    outputsAfter (received bench [0x09, 0x06, 0x00, 0x10, 0x80, 0x00, 0xE8, 0x87]) =
      some [.requestHandled 9 [0x06, 0x00, 0x10, 0x80, 0x00] [0x86, 0x01],
        .tx [0x09, 0x86, 0x01, 0x02, 0x62]] := by
  decide +kernel

/-- F32: a request with bit 7 set. -/
theorem test_illegal :
    outputsAfter (received bench [0x05, 0x83, 0x02, 0x81, 0x30]) =
      some [.requestHandled 5 [0x83, 0x02] [0x83, 0x01], .tx [0x05, 0x83, 0x01, 0xC1, 0x31]] := by
  decide +kernel

/-- The responses of F3, F12, F19 and F6, sent. -/
theorem test_responses :
    (nextState (exec (.rhrRsp 5 [0x2201]) bench)).map (·.outputs) =
      some [.tx [0x05, 0x03, 0x02, 0x22, 0x01, 0x90, 0xE4]] ∧
    (nextState (exec (.rirRsp 7 [0x00EB]) bench)).map (·.outputs) =
      some [.tx [0x07, 0x04, 0x02, 0x00, 0xEB, 0x71, 0x7F]] ∧
    (nextState (exec (.wmrRsp 9 0x20 2) bench)).map (·.outputs) =
      some [.tx [0x09, 0x10, 0x00, 0x20, 0x00, 0x02, 0x41, 0x4A]] ∧
    (nextState (exec (.exc 5 0x83 .illegalDataAddress) bench)).map (·.outputs) =
      some [.tx [0x05, 0x83, 0x02, 0x81, 0x30]] := by
  decide +kernel

/-- D16: the oracle, after every check, and nothing written. -/
theorem test_internal_fault :
    outputsAfter (received (faulty 9 [0x10, 0x00, 0x10, 0x00, 0x01, 0x02, 0x80, 0x00])
      [0x09, 0x10, 0x00, 0x10, 0x00, 0x01, 0x02, 0x80, 0x00, 0xA2, 0xC0]) =
      some [.requestHandled 9 [0x10, 0x00, 0x10, 0x00, 0x01, 0x02, 0x80, 0x00] [0x90, 0x04],
        .tx [0x09, 0x90, 0x04, 0xCC, 0x01]] ∧
    registerAfter (received (faulty 9 [0x10, 0x00, 0x10, 0x00, 0x01, 0x02, 0x80, 0x00])
      [0x09, 0x10, 0x00, 0x10, 0x00, 0x01, 0x02, 0x80, 0x00, 0xA2, 0xC0]) 9 .holding 0x10 =
      some 0x0000 := by
  decide +kernel

/-- D5 and D3: an unknown slave with the mode on, and with it off. -/
theorem test_unknown_slave :
    outputsAfter (received { bench with errOnMissingSlave := true }
      [0x06, 0x03, 0x00, 0x00, 0x00, 0x01, 0x85, 0xBD]) =
      some [.errorHook .unknownSlave [0x06, 0x03, 0x00, 0x00, 0x00, 0x01, 0x85, 0xBD]] ∧
    outputsAfter (received bench [0x06, 0x03, 0x00, 0x00, 0x00, 0x01, 0x85, 0xBD]) = some [] := by
  decide +kernel

/-- D7: the CRC check before the address check. -/
theorem test_crc_before_address :
    outputsAfter (received { bench with errOnMissingSlave := true }
      [0x06, 0x03, 0x00, 0x00, 0x00, 0x01, 0x05, 0xBD]) =
      some [.errorHook .crcMismatch [0x06, 0x03, 0x00, 0x00, 0x00, 0x01, 0x05, 0xBD]] := by
  decide +kernel

/-! ### The assembler and the host port -/

/-- A15: gap before overflow, on a full buffer. -/
theorem test_gap_before_overflow :
    (nextState (step (facing
      { bench with asm := { state := .receiving, buf := List.replicate 256 0x55, sil := 2 } }
      (.rxByte 0x66)))).map (fun t => (t.asm, t.outputs)) =
      some ({ state := .receiving, buf := [0x66], sil := 0 }, [.asmDrop .interCharGap]) := by
  decide +kernel

/-- A12: the 257th byte. -/
theorem test_oversize :
    (nextState (step (facing
      { bench with asm := { state := .receiving, buf := List.replicate 256 0x55, sil := 0 } }
      (.rxByte 0x55)))).map (fun t => (t.asm, t.outputs)) =
      some ({ state := .idle, buf := [], sil := 0 }, [.asmDrop .oversize]) := by
  decide +kernel

/-- A6: three bytes at the silence. -/
theorem test_short_frame :
    (nextState (step (received bench [0xAA, 0xBB, 0xCC]))).map (fun t => (t.asm, t.outputs)) =
      some ({ state := .idle, buf := [], sil := 0 }, [.asmDrop .shortFrame]) := by
  decide +kernel

/-- B1. -/
theorem test_add_slave :
    outputsAfter (facing bench (.addSlave 0)) = some [.result (.error .invalidAddress)] ∧
    outputsAfter (facing bench (.addSlave 248)) = some [.result (.error .invalidAddress)] ∧
    outputsAfter (facing bench (.addSlave 5)) = some [.result (.error .duplicateAddress)] ∧
    outputsAfter (facing bench (.addSlave 247)) = some [.result .ok] := by
  decide +kernel

/-- B5: touching is not overlapping. -/
theorem test_add_block :
    outputsAfter (facing bench (.addBlock 5 .holding 3 2)) = some [.result (.error .overlapError)] ∧
    outputsAfter (facing bench (.addBlock 5 .holding 4 2)) = some [.result .ok] ∧
    outputsAfter (facing bench (.addBlock 5 .input 0 4)) = some [.result .ok] ∧
    outputsAfter (facing bench (.addBlock 6 .holding 0 4)) = some [.result (.error .unknownSlave)] := by
  decide +kernel

/-- B3 and B4. -/
theorem test_add_block_bounds :
    outputsAfter (facing bench (.addBlock 5 .holding 0 0)) = some [.result (.error .invalidBlock)] ∧
    outputsAfter (facing bench (.addBlock 5 .holding 65535 2)) =
      some [.result (.error .invalidBlock)] ∧
    outputsAfter (facing bench (.addBlock 5 .holding 65535 1)) = some [.result .ok] := by
  decide +kernel

/-- B11, B10 and B12: the host writes the input space; a hole; an empty write. -/
theorem test_host_access :
    registerAfter (facing bench (.hostWrite 7 .input 0x20 [0xFFCE])) 7 .input 0x20 = some 0xFFCE ∧
    outputsAfter (facing bench (.hostRead 5 .holding 7 1)) = some [.result (.error .illegalAddress)] ∧
    outputsAfter (facing bench (.hostRead 5 .holding 0 4)) =
      some [.result (.value [0x0080, 0x0002, 0x0005, 0x2201])] ∧
    outputsAfter (facing bench (.hostWrite 5 .holding 0 [])) =
      some [.result (.error .illegalAddress)] := by
  decide +kernel

/-- B14 and B13. -/
theorem test_remove_and_start :
    outputsAfter (facing bench (.removeSlave 6)) = some [.result (.error .unknownSlave)] ∧
    outputsAfter (facing bench (.removeSlave 5)) = some [.result .ok] ∧
    outputsAfter (facing bench .start) = some [.result (.error .alreadyRunning)] ∧
    outputsAfter (facing bench .stop) = some [.result .ok] := by
  decide +kernel

/-! ### The table's words and the device model -/

/-- The words of the five request rows of spec/opcode_table.json, function code alone. -/
theorem test_table_words :
    decodeTableWord 8 0x03 = some (.rhr 0 (.fields 0 0)) ∧
    decodeTableWord 8 0x04 = some (.rir 0 (.fields 0 0)) ∧
    decodeTableWord 8 0x10 = some (.wmr 0 (.fields 0 [])) ∧
    decodeTableWord 8 0x06 = some (.wsr 0 []) ∧
    decodeTableWord 8 0x00 = some (.illegal 0 0x00 []) := by
  decide +kernel

/-- Bits 15 to 8 of a table word are the byte after the function code (rule R103). -/
theorem test_table_word_with_operands :
    decodeTableWord 40 0x0400200003 = some (.rhr 0 (.fields 0x0020 0x0004)) := by
  decide +kernel

/-- S9 and S13: slave 5, type 0x22, one channel. -/
theorem test_identity_block :
    ((Device.fresh 5 .temperature 1 true).identity =
      [0x0080, 0x0002, 0x0005, 0x2201]) ∧
    (Device.fresh 5 .temperature 1 true).uid = 0x800002 := by
  decide +kernel

def sensor (channels : List Bool) : Device :=
  { Device.fresh 6 .binarySensor channels.length true with channels := channels }

def relay : Device := Device.fresh 9 .relay 10 true

/-- S6 and S10. -/
theorem test_switch :
    (sensor (List.replicate 8 false)).setSwitchState 0 true =
      (sensor (true :: List.replicate 7 false), [.hostWrite 6 .input 0x10 [0x8000]]) ∧
    (sensor (List.replicate 8 true)).stateWord = 0xFF00 ∧
    ((sensor (true :: List.replicate 7 false)).setSwitchState 0 true).2 = [] := by
  decide +kernel

/-- S7, from the request and response PDUs of F17. -/
theorem test_relay_sync :
    relay.onRequestHandled 9 [0x10, 0x00, 0x10, 0x00, 0x01, 0x02, 0x80, 0x00]
      [0x10, 0x00, 0x10, 0x00, 0x01] =
      ({ relay with channels := true :: List.replicate 9 false }, [(0, true)]) := by
  decide +kernel

/-- S8 and S14, and the two ends of the range of rule R412. -/
theorem test_timer_and_temperature :
    relay.setTimer 0 true 10 =
      ({ relay with timers := 0x8014 :: List.replicate 9 0x0000 },
        [.hostWrite 9 .holding 0x20 [0x8014]]) ∧
    temperatureWord (47 / 2) = some 0x00EB ∧ temperatureWord (-5) = some 0xFFCE ∧
    temperatureWord (32767 / 10) = some 0x7FFF ∧ temperatureWord (-32768 / 10) = some 0x8000 := by
  decide +kernel

/-! ### Witnesses: the hypotheses of each obligation, met together, at the ends of their ranges -/

/-- An outcome that is a next state with a property. -/
theorem exists_next {o : Host.Outcome State Fault Refusal} {p : State → Prop} [DecidablePred p]
    (h : (nextState o).map (fun t => decide (p t)) = some true) : ∃ t, o = .next t ∧ p t := by
  cases o with
  | next t => exact ⟨t, rfl, by simpa [nextState] using h⟩
  | fault r => simp [nextState] at h
  | refused r => simp [nextState] at h

theorem exists_next_true {o : Host.Outcome State Fault Refusal}
    (h : (nextState o).isSome = true) : ∃ t, o = .next t := by
  cases o with
  | next t => exact ⟨t, rfl⟩
  | fault r => simp [nextState] at h
  | refused r => simp [nextState] at h

theorem witness_DecodeOfEncodeIsTheInstruction :
    (Instr.wmr 0xFF (.fields 0xFFFF (List.replicate 123 0xFFFF))).wellFormed = true ∧
    (Instr.wmr 0xFF (.fields 0xFFFF (List.replicate 123 0xFFFF))).isRequest = true ∧
    (Instr.illegal 0 0xFF (List.replicate 252 0)).wellFormed = true ∧
    (Instr.illegal 0 0xFF (List.replicate 252 0)).isRequest = true ∧
    (Instr.rhrRsp 5 (List.replicate 125 0)).wellFormed = true ∧
    (Instr.rhrRsp 5 (List.replicate 125 0)).isRequest = false ∧
    (Instr.exc 5 0xFF .illegalFunction).wellFormed = true ∧
    (Instr.exc 5 0xFF .illegalFunction).isRequest = false := by
  decide +kernel

set_option maxRecDepth 100000 in
/-- A16: a frame of 256 bytes; and one of 4. -/
theorem witness_EncodeOfDecodeIsTheFrame :
    decode ([0x11, 0x41] ++ List.replicate 252 0x00 ++ [0x65, 0x3F]) =
      .ok (.illegal 0x11 0x41 (List.replicate 252 0x00)) ∧
    decode [0x05, 0xFF, 0x42, 0xA0] = .ok (.illegal 5 0xFF []) ∧
    decodeResponse [0x05, 0x83, 0x02, 0x81, 0x30] = .ok (.exc 5 0x83 .illegalDataAddress) := by
  decide +kernel

set_option maxRecDepth 100000 in
theorem witness_FramesAreBoundedAndChecked :
    decode ([0x11, 0x41] ++ List.replicate 252 0x00 ++ [0x65, 0x3F]) =
      .ok (.illegal 0x11 0x41 (List.replicate 252 0x00)) ∧
    ∃ t, step (received bench [0x11, 0x03, 0x01, 0x00, 0x00, 0x7D, 0x86, 0x87]) = .next t ∧
      (t.outputs.any fun o => match o with | .tx f => f.length - 3 == 252 | _ => false) = true ∧
      (received bench [0x11, 0x03, 0x01, 0x00, 0x00, 0x7D, 0x86, 0x87]).outputs = [] :=
  ⟨by decide +kernel, exists_next (by decide +kernel)⟩

theorem witness_EveryFunctionCodeIsDecoded :
    (List.replicate 252 (0x00#8)).length ≤ 252 ∧ (0x06#8 ≠ 0x03#8 ∧ 0x06#8 ≠ 0x04#8 ∧ 0x06#8 ≠ 0x10#8) ∧
    (0xFF#8 ≠ 0x03#8 ∧ 0xFF#8 ≠ 0x04#8 ∧ 0xFF#8 ≠ 0x10#8 ∧ 0xFF#8 ≠ 0x06#8) ∧
    0x05#8 ≠ 0x00#8 ∧ bench.registered (0x05#8).toNat = true := by
  decide +kernel

/-- The first byte, and one bit of the last. -/
theorem witness_OneByteCorruptionIsDetected :
    verify [0x01, 0x03, 0x00, 0x00, 0x00, 0x01, 0x84, 0x0A] = true ∧
    0 < [0x01#8, 0x03, 0x00, 0x00, 0x00, 0x01, 0x84, 0x0A].length ∧
    [0x01#8, 0x03, 0x00, 0x00, 0x00, 0x01, 0x84, 0x0A][0]? ≠ some 0x00#8 ∧
    7 < [0x01#8, 0x03, 0x00, 0x00, 0x00, 0x01, 0x84, 0x0A].length ∧
    [0x01#8, 0x03, 0x00, 0x00, 0x00, 0x01, 0x84, 0x0A][7]? ≠ some 0x0B#8 := by
  decide +kernel

/-- The example of rule R274: found, crossing, and a hole. -/
theorem witness_ResolveFindsTheOneContainingBlock :
    blocksWf 0 [{ start := 0, data := [1, 2, 3, 4] }, { start := 4, data := [5, 6] }] = true ∧
    covers { start := 0, data := [1, 2, 3, 4] } 2 2 = true ∧
    covers { start := 0, data := [1, 2, 3, 4] } 3 2 = false ∧
    covers { start := 4, data := [5, 6] } 3 2 = false ∧
    covers { start := 4, data := [5, 6] } 6 1 = false := by
  decide +kernel

theorem witness_MemReadGivesTheRange :
    bench.slaves.wf = true ∧ bench.slaves.bank 7 = some bank7 ∧ 1 ≤ 1 ∧
    { start := 0x20, data := [0x00EB] } ∈ bank7.blocks .input ∧
    covers { start := 0x20, data := [0x00EB] } 0x20 1 = true ∧
    contained bench.slaves 7 .input 0x20 2 = false := by
  decide +kernel

theorem witness_MemWriteStoresAllOrNothing :
    bench.slaves.wf = true ∧ bench.slaves.bank 9 = some bank9 ∧
    [0x8000#16] ≠ [] ∧ contained bench.slaves 9 .holding 0x29 [0x8000#16].length = true ∧
    contained bench.slaves 9 .holding 0x29 [0xAAAA#16, 0xBBBB#16].length = false := by
  decide +kernel

theorem witness_WriteThenReadRoundTrip :
    bench.slaves.wf = true ∧ [0x1111#16, 0x2222#16] ≠ [] ∧
    contained bench.slaves 5 .holding 2 [0x1111#16, 0x2222#16].length = true ∧
    contained bench.slaves 7 .input (0x20#16).toNat [0xFFCE#16].length = true ∧
    { bench with inputs := [.hostWrite 7 .input 0x20#16 [0xFFCE#16],
      .hostRead 7 .input 0x20#16 [0xFFCE#16].length] }.inputs =
      [.hostWrite 7 .input 0x20#16 [0xFFCE#16], .hostRead 7 .input 0x20#16 1] := by
  decide +kernel

/-- F9: 65535 and 2. -/
theorem witness_RangesPastTheLastAddressFail :
    bench.slaves.wf = true ∧ 0x05#8 ≠ 0x00#8 ∧ bench.registered (0x05#8).toNat = true ∧
    (0x0002#16).toNat ≠ 0 ∧ 65536 < (0xFFFF#16).toNat + (0x0002#16).toNat ∧
    [0x0000#16, 0x0000#16] ≠ [] ∧ 65536 < (0xFFFF#16).toNat + [0x0000#16, 0x0000#16].length := by
  decide +kernel

/-- A byte to come, in `Idle`, and in `Receiving` after 255 bytes and one tick less than `T_IC`. -/
theorem witness_BytesStartAndExtendAFrame :
    (facing bench (.rxByte 1)).run = true ∧ (facing bench (.rxByte 1)).inputs = .rxByte 1 :: [] ∧
    bench.asm.state = .idle ∧
    (∃ s : State, s = facing
        { bench with asm := { state := .receiving, buf := List.replicate 255 0x55, sil := 1 } }
        (.rxByte 1) ∧
      s.run = true ∧ s.asm.state = .receiving ∧ s.asm.sil < s.params.tIC ∧ s.asm.len < 256) := by
  refine ⟨by decide +kernel, by decide +kernel, by decide +kernel, _, rfl, ?_⟩
  decide +kernel

theorem witness_GapsAndOverflowsDropTheFrame :
    (∃ s : State, s = facing
        { bench with asm := { state := .receiving, buf := List.replicate 256 0x55, sil := 2 } }
        (.rxByte 1) ∧
      s.run = true ∧ s.asm.state = .receiving ∧ s.params.tIC ≤ s.asm.sil) ∧
    (∃ s : State, s = facing
        { bench with asm := { state := .receiving, buf := List.replicate 256 0x55, sil := 1 } }
        (.rxByte 1) ∧
      s.run = true ∧ s.asm.state = .receiving ∧ s.asm.sil < s.params.tIC ∧ s.asm.len = 256) ∧
    (∃ s : State, s = { bench with
          params := { bench.params with tIC := 4 }
          asm := { state := .receiving, buf := [0x05], sil := 3 } } ∧
      s.sound = true ∧ s.asm.state = .receiving ∧ s.params.tIC = s.params.tIF) := by
  refine ⟨⟨_, rfl, ?_⟩, ⟨_, rfl, ?_⟩, ⟨_, rfl, ?_⟩⟩ <;> decide +kernel

theorem witness_TickTransitions :
    (facing bench .tick).run = true ∧ (facing bench .tick).inputs = .tick :: [] ∧
    bench.asm.state = .idle ∧
    (∃ s : State, s = facing
        { bench with asm := { state := .receiving, buf := [0x05], sil := 2 } } .tick ∧
      s.asm.state = .receiving ∧ s.asm.sil + 1 < s.params.tIF) ∧
    (received bench [0xAA, 0xBB, 0xCC]).asm.state = .receiving ∧
    (received bench [0xAA, 0xBB, 0xCC]).asm.sil + 1 = bench.params.tIF ∧
    (received bench [0xAA, 0xBB, 0xCC]).asm.len < 4 := by
  refine ⟨by decide +kernel, by decide +kernel, by decide +kernel, ⟨_, rfl, ?_⟩, ?_⟩ <;>
    decide +kernel

theorem witness_LinkIgnoredWhileStopped :
    (facing State.reset (.rxByte 1)).run = false ∧
    (facing State.reset (.rxByte 1)).inputs = .rxByte 1 :: [] ∧
    (facing State.reset .tick).inputs = .tick :: [] ∧ (facing State.reset .stop).inputs = .stop :: [] ∧
    (facing State.reset .start).run = false ∧ (facing State.reset .start).inputs = .start :: [] := by
  decide +kernel

/-- F15, 4 bytes, with gaps of one tick, one below `T_IC`. -/
def gaps : List (Nat × Byte) := [(1, 0x05#8), (1, 0x03#8), (0, 0x42#8), (1, 0xE1#8)]

/-- The same with a bit of the CRC flipped. -/
def badGaps : List (Nat × Byte) := [(1, 0x05#8), (1, 0x03#8), (0, 0x42#8), (1, 0xE0#8)]

theorem witness_GappedFrameIsDispatchedOnce :
    bench.params.legal = true ∧ bench.run = true ∧
    bench.asm = { state := .idle, buf := [], sil := 0 } ∧
    4 ≤ gaps.length ∧ gaps.length ≤ 256 ∧ (∀ x ∈ gaps, x.1 < bench.params.tIC) ∧
    4 ≤ badGaps.length ∧ badGaps.length ≤ 256 ∧ (∀ x ∈ badGaps, x.1 < bench.params.tIC) ∧
    (bench.setInputs (gapped gaps ++ List.replicate bench.params.tIF .tick ++ [.stop])).inputs =
      gapped gaps ++ List.replicate bench.params.tIF .tick ++ [.stop] ∧
    decode (gaps.map Prod.snd) = .ok (.rhr 5 (.malformed [])) ∧
    verify (badGaps.map Prod.snd) = false := by
  decide +kernel

/-- F15, a frame of 4 bytes. -/
theorem witness_StepRunsTheDecodedRequest :
    completes (received bench [0x05, 0x03, 0x42, 0xE1]) [] ∧
    4 ≤ (received bench [0x05, 0x03, 0x42, 0xE1]).asm.len ∧
    decode (received bench [0x05, 0x03, 0x42, 0xE1]).asm.buf = .ok (.rhr 5 (.malformed [])) := by
  unfold completes
  decide +kernel

theorem witness_FetchedTableWordRunsNext :
    decodeTableWord 8 0x03 = some (.rhr 0 (.fields 0 0)) ∧
    decodeTableWord 0 0xFF = some (.illegal 0 0xFF []) := by
  decide +kernel

/-- D2. -/
theorem witness_CorruptFrameOnlyRaisesTheHook :
    completes (received bench [0x06, 0x03, 0x00, 0x00, 0x00, 0x01, 0x85, 0x8E]) [] ∧
    4 ≤ (received bench [0x06, 0x03, 0x00, 0x00, 0x00, 0x01, 0x85, 0x8E]).asm.len ∧
    verify (received bench [0x06, 0x03, 0x00, 0x00, 0x00, 0x01, 0x85, 0x8E]).asm.buf = false := by
  unfold completes
  decide +kernel

/-- D4: address 248. -/
theorem witness_ForeignFramesAreIgnored :
    completes (received bench [0xF8, 0x03, 0x00, 0x00, 0x00, 0x01, 0x90, 0x63]) [] ∧
    decode (received bench [0xF8, 0x03, 0x00, 0x00, 0x00, 0x01, 0x90, 0x63]).asm.buf =
      .ok (.rhr 0xF8 (.fields 0 1)) ∧
    (Instr.rhr 0xF8 (.fields 0 1)).addr ≠ 0x00#8 ∧ bench.registered (0xF8#8).toNat = false ∧
    bench.errOnMissingSlave = false := by
  unfold completes
  decide +kernel

/-- D6: address 255; and the ends of the registered addresses. -/
theorem witness_UnknownSlavesOnlyRaiseTheHook :
    completes (received { bench with errOnMissingSlave := true }
      [0xFF, 0x03, 0x00, 0x00, 0x00, 0x01, 0x91, 0xD4]) [] ∧
    decode [0xFF, 0x03, 0x00, 0x00, 0x00, 0x01, 0x91, 0xD4] = .ok (.rhr 0xFF (.fields 0 1)) ∧
    0xFF#8 ≠ 0x00#8 ∧ bench.registered (0xFF#8).toNat = false ∧
    (∃ s : State, s = { bench with slaves := [(1, bank5), (247, bank7)] } ∧ s.slaves.wf = true ∧
      s.registered 1 = true ∧ s.registered 247 = true) := by
  unfold completes
  refine ⟨by decide +kernel, by decide +kernel, by decide +kernel, by decide +kernel, _, rfl, ?_⟩
  decide +kernel

theorem witness_BroadcastWritesEverySlaveAndAnswersNone :
    bench.slaves.wf = true ∧ [0x00FF#16] ≠ [] := by
  decide +kernel

theorem witness_AtMostOneResponseAfterItsHook :
    ∃ t, step (received bench [0x05, 0x03, 0x42, 0xE1]) = .next t :=
  exists_next_true (by decide +kernel)

/-- F35 and F39: 125 registers, at the start and at the end of a block. -/
theorem witness_ReadsAnswerWithTheWords :
    bench.slaves.wf = true ∧ 0x11#8 ≠ 0x00#8 ∧ bench.slaves.bank (0x11#8).toNat = some bank17 ∧
    1 ≤ (0x7D#16).toNat ∧ (0x7D#16).toNat ≤ 125 ∧
    (∃ b ∈ bank17.blocks .holding, covers b (0x14B#16).toNat (0x7D#16).toNat = true) ∧
    (∃ b ∈ bank17.blocks .input, covers b (0x100#16).toNat (0x7D#16).toNat = true) ∧
    (0x11#8, readPdu 0x03 0x14B 0x7D) ∉ bench.params.internalFault ∧
    (0x11#8, readPdu 0x04 0x100 0x7D) ∉ bench.params.internalFault := by
  decide +kernel

/-- F7, F40, F36, and an oracle that answers true (as D17). -/
theorem witness_FailedReadsAnswerExceptions :
    bench.slaves.wf = true ∧ 0x11#8 ≠ 0x00#8 ∧ bench.registered (0x11#8).toNat = true ∧
    (0x0000#16).toNat = 0 ∧ (0x7D#16).toNat ≠ 0 ∧
    contained bench.slaves (0x11#8).toNat .holding (0x14C#16).toNat (0x7D#16).toNat = false ∧
    contained bench.slaves (0x11#8).toNat .input (0x14C#16).toNat (0x7D#16).toNat = false ∧
    125 < (0x7E#16).toNat ∧
    contained bench.slaves (0x11#8).toNat .holding (0x100#16).toNat (0x7E#16).toNat = true ∧
    contained bench.slaves (0x11#8).toNat .input (0x100#16).toNat (0x7E#16).toNat = true ∧
    1 ≤ (0x7D#16).toNat ∧ (0x7D#16).toNat ≤ 125 ∧
    contained bench.slaves (0x11#8).toNat .holding (0x100#16).toNat (0x7D#16).toNat = true ∧
    contained bench.slaves (0x11#8).toNat .input (0x100#16).toNat (0x7D#16).toNat = true ∧
    (0x11#8, readPdu 0x03 0x100 0x7D) ∈
      (faulty 0x11 (readPdu 0x03 0x100 0x7D)).params.internalFault ∧
    (0x11#8, readPdu 0x04 0x100 0x7D) ∈
      (faulty 0x11 (readPdu 0x04 0x100 0x7D)).params.internalFault := by
  decide +kernel

/-- The last register of a block, and 123 values. -/
theorem witness_WritesStoreAndEchoStartAndCount :
    bench.slaves.wf = true ∧ 0x09#8 ≠ 0x00#8 ∧ [0xAAAA#16] ≠ [] ∧
    contained bench.slaves (0x09#8).toNat .holding (0x29#16).toNat [0xAAAA#16].length = true ∧
    (0x09#8, writePdu 0x29 [0xAAAA]) ∉ bench.params.internalFault ∧
    contained bench.slaves (0x11#8).toNat .holding (0x100#16).toNat
      (List.replicate 123 0xA000#16).length = true := by
  decide +kernel

/-- F21, and the oracle of D16. -/
theorem witness_FailedWritesAnswerExceptions :
    bench.slaves.wf = true ∧ 0x09#8 ≠ 0x00#8 ∧ bench.registered (0x09#8).toNat = true ∧
    [0xAAAA#16, 0xBBBB#16] ≠ [] ∧
    contained bench.slaves (0x09#8).toNat .holding (0x29#16).toNat [0xAAAA#16, 0xBBBB#16].length =
      false ∧
    contained bench.slaves (0x09#8).toNat .holding (0x10#16).toNat [0x8000#16].length = true ∧
    (0x09#8, writePdu 0x10 [0x8000]) ∈ (faulty 9 (writePdu 0x10 [0x8000])).params.internalFault := by
  decide +kernel

theorem witness_OtherFunctionsAnswerIllegalFunction :
    0x05#8 ≠ 0x00#8 ∧ bench.registered (0x05#8).toNat = true ∧ (0xFF#8).getLsbD 7 = true := by
  decide +kernel

theorem witness_WriteSingleRegisterIsRejected :
    0x09#8 ≠ 0x00#8 ∧ bench.registered (0x09#8).toNat = true := by
  decide +kernel

theorem witness_ExceptionEntryOnlyAnswers :
    (Instr.wsr 9 [0x00]).addr = 9 ∧ (Instr.wsr 9 [0x00]).pdu = 0x06#8 :: [0x00] := by
  decide +kernel

theorem witness_InstructionsChangeOnlyTheRegistersTheyName :
    bench.slaves.wf = true ∧ ∃ t, exec (.wmr 9 (.fields 0x10 [0x8000])) bench = .next t ∧
      t.slaves.reg 9 .holding 0x10 ≠ bench.slaves.reg 9 .holding 0x10 :=
  ⟨by decide +kernel, exists_next (by decide +kernel)⟩

theorem witness_ReadAfterWriteSeesTheValues :
    bench.slaves.wf = true ∧ 0x11#8 ≠ 0x00#8 ∧ List.replicate 123 0xA000#16 ≠ [] ∧
    (List.replicate 123 0xA000#16).length ≤ 123 ∧
    contained bench.slaves (0x11#8).toNat .holding (0x100#16).toNat
      (List.replicate 123 0xA000#16).length = true ∧
    bench.params.internalFault = [] ∧
    ∃ t, exec (.wmr 0x11 (.fields 0x100 (List.replicate 123 0xA000#16))) bench = .next t := by
  refine ⟨?_, ?_, ?_, ?_, ?_, ?_, exists_next_true ?_⟩ <;> decide +kernel

theorem witness_AddSlaveRegistersAnEmptyBank :
    (∀ a, (facing bench (.addSlave a)).inputs = .addSlave a :: []) ∧ (0 < 1 ∨ 247 < 0) ∧
    (248 < 1 ∨ 247 < 248) ∧ (1 ≤ 5 ∧ 5 ≤ 247 ∧ bench.registered 5 = true) ∧
    (1 ≤ 1 ∧ 1 ≤ 247 ∧ bench.registered 1 = false) ∧ bench.registered 247 = false :=
  ⟨fun _ => rfl, by decide +kernel⟩

theorem witness_RemoveSlaveDestroysTheBank :
    (∀ a, (facing bench (.removeSlave a)).inputs = .removeSlave a :: []) ∧
    bench.slaves.wf = true ∧ bench.registered 6 = false ∧ bench.registered 5 = true :=
  ⟨fun _ => rfl, by decide +kernel⟩

/-- B4 and B5: no slave; a bad block; an overlap by one register; blocks that touch; the last address. -/
theorem witness_AddBlockDeclaresAFreeRange :
    (∀ a sp start n, (facing bench (.addBlock a sp start n)).inputs = .addBlock a sp start n :: []) ∧
    bench.slaves.bank 6 = none ∧ bench.slaves.bank 5 = some bank5 ∧
    (0 < 1 ∨ 65536 < (0x0000#16).toNat + 0) ∧ (2 < 1 ∨ 65536 < (0xFFFF#16).toNat + 2) ∧
    (∃ b ∈ bank5.blocks .holding,
      (0x0003#16).toNat < b.start + b.length ∧ b.start < (0x0003#16).toNat + 2) ∧
    (∀ b ∈ bank5.blocks .holding,
      b.start + b.length ≤ (0x0004#16).toNat ∨ (0x0004#16).toNat + 2 ≤ b.start) ∧
    (1 ≤ 1 ∧ (0xFFFF#16).toNat + 1 ≤ 65536) :=
  ⟨fun _ _ _ _ => rfl, by decide +kernel⟩

theorem witness_HostWriteStoresInEitherSpace :
    (∀ a sp start vs, (facing bench (.hostWrite a sp start vs)).inputs =
      .hostWrite a sp start vs :: []) ∧
    bench.slaves.wf = true ∧ bench.registered 6 = false ∧ bench.registered 7 = true ∧
    [0xFFCE#16] ≠ [] ∧ contained bench.slaves 7 .input (0x20#16).toNat [0xFFCE#16].length = true ∧
    contained bench.slaves 7 .input (0x21#16).toNat [0xFFCE#16].length = false :=
  ⟨fun _ _ _ _ => rfl, by decide +kernel⟩

theorem witness_HostReadGivesTheWords :
    (∀ a sp start n, (facing bench (.hostRead a sp start n)).inputs =
      .hostRead a sp start n :: []) ∧
    bench.slaves.wf = true ∧ bench.registered 6 = false ∧ bench.registered 0x11 = true ∧
    bench.slaves.bank 0x11 = some bank17 ∧
    (∃ b ∈ bank17.blocks .holding, covers b (0x100#16).toNat 200 = true) ∧
    contained bench.slaves 0x11 .holding (0x100#16).toNat 201 = false :=
  ⟨fun _ _ _ _ => rfl, by decide +kernel⟩

theorem witness_ModeIsSetAtOnce :
    (facing bench (.setErrOnMissingSlave true)).inputs = .setErrOnMissingSlave true :: [] := rfl

theorem witness_StartAndStopControlTheLoop :
    (facing bench .start).inputs = .start :: [] ∧ (facing bench .start).run = true ∧
    (facing State.reset .start).inputs = .start :: [] ∧ (facing State.reset .start).run = false ∧
    (facing bench .stop).inputs = .stop :: [] := by
  decide +kernel

theorem witness_StopThenStartClearsOnlyTheAssembler :
    { bench with inputs := [.stop, .start] }.inputs = .stop :: .start :: [] := rfl

theorem witness_ConfigurationErrorsChangeNothing :
    (facing bench .start).inputs = .start :: [] ∧ ∃ t, step (facing bench .start) = .next t ∧
      t.outputs = (facing bench .start).outputs ++ [.result (.error .alreadyRunning)] :=
  ⟨rfl, exists_next (by decide +kernel)⟩

theorem witness_ResetEventClearsEverything : (facing bench .reset).inputs = .reset :: [] := rfl

set_option maxRecDepth 100000 in
/-- A full buffer, one tick short of the silence, and a tick to come. -/
theorem witness_EveryStepKeepsTheStateSound :
    (received bench (List.replicate 256 0x55)).sound = true ∧
    ∃ t, step (received bench (List.replicate 256 0x55)) = .next t :=
  ⟨by decide +kernel, exists_next_true (by decide +kernel)⟩

theorem witness_ResetStateIsSound :
    Params.legal { Params.vectors with tIF := 1, tIC := 1 } = true := by
  decide +kernel

/-- Each premise of a change met once: run and assembler by `Start`, the mode, the slaves and the layout,
an input register. -/
theorem witness_ControlStateChangesOnlyByItsOwnEvents :
    (∃ t, step (facing State.reset .start) = .next t ∧ t.run ≠ State.reset.run) ∧
    (∃ t, step (facing bench (.setErrOnMissingSlave true)) = .next t ∧
      t.errOnMissingSlave ≠ bench.errOnMissingSlave) ∧
    (∃ t, step (facing bench (.addSlave 1)) = .next t ∧
      t.slaves.map Prod.fst ≠ bench.slaves.map Prod.fst ∧ layout t.slaves ≠ layout bench.slaves) ∧
    (∃ t, step (facing bench (.hostWrite 7 .input 0x20 [0xFFCE])) = .next t ∧
      t.slaves.reg 7 .input 0x20 ≠ bench.slaves.reg 7 .input 0x20) ∧
    (∃ t, step (facing bench (.rxByte 1)) = .next t ∧ t.asm ≠ bench.asm) :=
  ⟨exists_next (by decide +kernel), exists_next (by decide +kernel), exists_next (by decide +kernel),
    exists_next (by decide +kernel), exists_next (by decide +kernel)⟩

theorem witness_NoEventNoChange : bench.inputs = [] := rfl

/-- With a word that sets bits 2 to 7, which are no channel's, channel 0 and one of channels 8 and 9. -/
theorem witness_RelayFollowsAnExternalWrite :
    relay.kind = .relay ∧ relay.channels.length = 10 ∧
    (0, true) ∈ (relay.onRegisterWrite 0x10 [0x80FD]).2 ∧
    (8, true) ∈ (relay.onRegisterWrite 0x10 [0x80FD]).2 ∧
    (9, true) ∉ (relay.onRegisterWrite 0x10 [0x80FD]).2 := by
  decide +kernel

theorem witness_SwitchWritesAreSuppressed :
    relay.channels[9]? = some false ∧ relay.channels[10]? = none ∧
    stateSpace relay.kind = some .holding ∧ relay.channels[0]? = some (!true) := by
  decide +kernel

end Sys2Proof.Tests
end

section
/-! PROOFS. The statements of 30_encoding.md about requests and their answers, and the rules they rest
on: what a containing block reads and stores, and how the dispatcher answers a registered slave. -/

namespace Sys2Proof.Machine

open Sys2Proof.Claims

/-! ### Frames (rules R100 to R102 and R145) -/

@[simp] theorem crcAppend_length (bs : List Byte) : (crcAppend bs).length = bs.length + 2 := by
  simp [crcAppend]

@[simp] theorem verify_crcAppend (bs : List Byte) : verify (crcAppend bs) = true := by
  simp [verify, crcAppend]

@[simp] theorem splitFrame_crcAppend (a fc : Byte) (p : List Byte) :
    splitFrame (crcAppend (a :: fc :: p)) = (a, fc, p) := by
  simp [splitFrame, crcAppend]

theorem frameError_crcAppend {bs : List Byte} (hmin : 2 ≤ bs.length) (hmax : bs.length ≤ 254) :
    frameError (crcAppend bs) = none := by
  have hshort : ¬ (crcAppend bs).length < 4 := by rw [crcAppend_length]; omega
  have hlong : ¬ 256 < (crcAppend bs).length := by rw [crcAppend_length]; omega
  rw [frameError, if_neg hshort, if_neg hlong, if_pos (verify_crcAppend bs)]

/-- A framed PDU whose payload fits is read as the request its function byte and payload stand for. -/
theorem decode_crcAppend (a fc : Byte) {p : List Byte} (hp : p.length ≤ 252) :
    decode (crcAppend (a :: fc :: p)) = .ok (decodeRequest a fc p) := by
  have herr : frameError (crcAppend (a :: fc :: p)) = none :=
    frameError_crcAppend (by simp) (by simp only [List.length_cons]; omega)
  simp [decode, herr, decodeVerified]

/-! ### The map of function codes (rule R111) -/

theorem decodeRequest_readHolding (a : Byte) (p : List Byte) :
    decodeRequest a 0x03#8 p = .rhr a (decodeReadOperands p) := rfl

theorem decodeRequest_readInput (a : Byte) (p : List Byte) :
    decodeRequest a 0x04#8 p = .rir a (decodeReadOperands p) := rfl

theorem decodeRequest_writeMultiple (a : Byte) (p : List Byte) :
    decodeRequest a 0x10#8 p = .wmr a (decodeWriteOperands p) := rfl

theorem decodeRequest_writeSingle (a : Byte) (p : List Byte) :
    decodeRequest a 0x06#8 p = .wsr a p := rfl

theorem decodeRequest_other (a : Byte) {fc : Byte} (p : List Byte) (h3 : fc ≠ 0x03#8)
    (h4 : fc ≠ 0x04#8) (h10 : fc ≠ 0x10#8) (h6 : fc ≠ 0x06#8) :
    decodeRequest a fc p = .illegal a fc p := by
  simp [decodeRequest, fcReadHolding, fcReadInput, fcWriteMultiple, fcWriteSingle, h3, h4, h10, h6]

/-! ### Answering (rules R201, R210 and R307) -/

theorem State.respond_eq_answered (s : State) {req rsp : Instr} (h : rsp.addr = req.addr) :
    s.respond req rsp = answered s req.addr req.pdu rsp.pdu := by
  simp [State.respond, State.transmit, State.emit, answered, emits, encode, h]

theorem State.takeException_eq_answered (s : State) {req : Instr} {fc : Byte} {p : List Byte}
    (code : ExcCode) (h : req.pdu = fc :: p) :
    s.takeException req code = answered s req.addr (fc :: p) [fc ||| 0x80#8, excByte code] := by
  have haddr : (buildException req code).addr = req.addr := rfl
  have hfc : functionByte req = fc := by simp [functionByte, h]
  have hpdu : (buildException req code).pdu = [fc ||| 0x80#8, excByte code] := by
    rw [buildException, hfc, Instr.pdu]
  rw [State.takeException, State.respond_eq_answered s haddr, h, hpdu]

theorem State.registered_of_bank {s : State} {a : Nat} {bk : Bank} (h : s.slaves.bank a = some bk) :
    s.registered a = true := by
  simp [State.registered, h]

/-- A request to a registered slave is executed (rule R201). -/
theorem State.route_registered {s : State} {req : Instr} (onBroadcast onSlave : State)
    (ha : req.addr ≠ 0x00#8) (hr : s.registered req.addr.toNat = true) :
    s.route req onBroadcast onSlave = onSlave := by
  have hb : ¬ req.addr = Config.addrBroadcast := ha
  rw [State.route, if_neg hb, if_pos hr]

theorem State.internalFault_eq_false {s : State} {a : Byte} {pdu : List Byte}
    (h : (a, pdu) ∉ s.params.internalFault) : s.internalFault a pdu = false := by
  simpa [State.internalFault] using h

/-! ### The rejected functions (rules R244 and R245) -/

theorem exec_wsr_registered {s : State} {a : Byte} (p : List Byte) (ha : a ≠ 0x00#8)
    (hr : s.registered a.toNat = true) :
    exec (.wsr a p) s = .next (answered s a (0x06#8 :: p) [0x86#8, 0x01#8]) := by
  have hroute := State.route_registered (req := .wsr a p) s
    (s.takeException (.wsr a p) .illegalFunction) ha hr
  exact congrArg _ (hroute.trans (State.takeException_eq_answered s .illegalFunction rfl))

theorem exec_illegal_registered {s : State} {a : Byte} (fc : Byte) (p : List Byte)
    (ha : a ≠ 0x00#8) (hr : s.registered a.toNat = true) :
    exec (.illegal a fc p) s = .next (answered s a (fc :: p) [fc ||| 0x80#8, 0x01#8]) := by
  have hroute := State.route_registered (req := .illegal a fc p) s
    (s.takeException (.illegal a fc p) .illegalFunction) ha hr
  exact congrArg _ (hroute.trans (State.takeException_eq_answered s .illegalFunction rfl))

/-- Every code but the three supported ones is decoded to a request that is answered with
`IllegalFunction`, `WriteSingleRegister` among them (rules R111 and R112). -/
theorem exec_decodeRequest_unsupported {s : State} {a fc : Byte} (p : List Byte)
    (h3 : fc ≠ 0x03#8) (h4 : fc ≠ 0x04#8) (h10 : fc ≠ 0x10#8)
    (ha : a ≠ 0x00#8) (hr : s.registered a.toNat = true) :
    exec (decodeRequest a fc p) s = .next (answered s a (fc :: p) [fc ||| 0x80#8, 0x01#8]) := by
  by_cases h6 : fc = 0x06#8
  · subst h6
    exact exec_wsr_registered p ha hr
  · rw [decodeRequest_other a p h3 h4 h10 h6]
    exact exec_illegal_registered fc p ha hr

/-- Settles O5: the frame decodes to `decodeRequest` of its fields, whose branches are the map. -/
theorem everyFunctionCodeIsDecoded : Obligations.EveryFunctionCodeIsDecoded := by
  intro a fc p hp
  rw [decode_crcAppend a fc hp]
  refine ⟨?_, ?_, ?_, ?_, ?_, ?_⟩
  · rintro rfl
    exact ⟨_, congrArg _ (decodeRequest_readHolding a p)⟩
  · rintro rfl
    exact ⟨_, congrArg _ (decodeRequest_readInput a p)⟩
  · rintro rfl
    exact ⟨_, congrArg _ (decodeRequest_writeMultiple a p)⟩
  · rintro rfl
    exact congrArg _ (decodeRequest_writeSingle a p)
  · intro h3 h4 h10 h6
    exact congrArg _ (decodeRequest_other a p h3 h4 h10 h6)
  · intro h3 h4 h10 s ha hr
    exact ⟨_, rfl, exec_decodeRequest_unsupported p h3 h4 h10 ha hr⟩

/-! ### The block that contains a range (rules R64, R65, R274 and R275) -/

theorem blocksWf_start_le {lo : Nat} {bs : List Block} {b : Block} (h : blocksWf lo bs = true)
    (hb : b ∈ bs) : lo ≤ b.start := by
  induction bs generalizing lo with
  | nil => cases hb
  | cons c cs ih =>
    obtain ⟨⟨hlo, -, -⟩, hcs⟩ := blocksWf_cons.1 h
    rcases List.mem_cons.1 hb with rfl | hb
    · exact hlo
    · have := ih hcs hb
      omega

/-- Blocks in canonical form do not overlap, so `resolve` finds the block that contains a range. -/
theorem resolve_of_contains {lo start count : Nat} {bs : List Block} {b : Block}
    (h : blocksWf lo bs = true) (hb : b ∈ bs) (hcount : 1 ≤ count)
    (hc : b.contains start count = true) : resolve bs start count = some (b, start - b.start) := by
  induction bs generalizing lo with
  | nil => cases hb
  | cons c cs ih =>
    obtain ⟨-, hcs⟩ := blocksWf_cons.1 h
    rcases List.mem_cons.1 hb with rfl | hb
    · rw [resolve, if_pos hc]
    · have hbefore : ¬ c.contains start count = true := by
        have hstart := blocksWf_start_le hcs hb
        rw [Block.contains_iff] at hc ⊢
        omega
      rw [resolve, if_neg hbefore, ih hcs hb]

theorem Memory.read_of_contains {m : Memory} {a start count : Nat} {sp : Space} {bk : Bank}
    {b : Block} (hm : m.wf = true) (hbk : m.bank a = some bk) (hb : b ∈ bk.blocks sp)
    (hcount : 1 ≤ count) (hc : b.contains start count = true) :
    m.read a sp start count = .ok (b.load (start - b.start) count) := by
  have hwf : blocksWf 0 (bk.blocks sp) = true := (Bank.wf_iff bk).1 (Memory.bank_wf hm hbk) sp
  simp [Memory.read, hbk, Bank.read, readBlocks, resolve_of_contains hwf hb hcount hc]

theorem contained_iff {m : Memory} {a start count : Nat} {sp : Space} :
    contained m a sp start count = true ↔
      ∃ bk b, m.bank a = some bk ∧ b ∈ bk.blocks sp ∧ b.contains start count = true := by
  cases h : m.bank a with
  | none => simp [contained, h]
  | some bk => simp [contained, h, covers, Block.contains]

/-! ### Storing a range (rule R276) -/

theorem writeBlocks_of_contains {start : Nat} {bs : List Block} {b : Block} {values : List Word}
    (hb : b ∈ bs) (hc : b.contains start values.length = true) :
    ∃ bs', writeBlocks bs start values = some bs' := by
  rw [← Option.isSome_iff_exists, writeBlocks_isSome, Option.isSome_iff_ne_none]
  intro hnone
  simp [resolve_none hnone b hb] at hc

theorem writeBlocks_contained {start : Nat} {bs bs' : List Block} {values : List Word}
    (h : writeBlocks bs start values = some bs') :
    ∃ b ∈ bs, b.contains start values.length = true := by
  have hsome : (resolve bs start values.length).isSome = true := by
    rw [← writeBlocks_isSome, h]
    rfl
  obtain ⟨⟨b, o⟩, hr⟩ := Option.isSome_iff_exists.1 hsome
  obtain ⟨hb, hc, -⟩ := resolve_cases hr
  exact ⟨b, hb, hc⟩

theorem Memory.write_of_contained {m : Memory} {a start : Nat} {values : List Word}
    (h : contained m a .holding start values.length = true) :
    ∃ m', m.write a .holding start values = .ok m' := by
  obtain ⟨bk, b, hbk, hb, hc⟩ := contained_iff.1 h
  obtain ⟨bs', hw⟩ := writeBlocks_of_contains hb hc
  exact ⟨m.setBank a (bk.setBlocks .holding bs'), by
    simp [Memory.write, hbk, Bank.write, Bank.store, hw]⟩

/-! ### One register of one space -/

/-- The word at one address of a space: what `Memory.reg` reads, in a slave's blocks. -/
def wordAt (bs : List Block) (i : Nat) : Option Word :=
  (readBlocks bs i 1).bind List.head?

@[simp] theorem wordAt_nil (i : Nat) : wordAt [] i = none := rfl

theorem wordAt_cons (b : Block) (bs : List Block) (i : Nat) :
    wordAt (b :: bs) i = if b.contains i 1 = true then b.data[i - b.start]? else wordAt bs i := by
  by_cases h : b.contains i 1 = true
  · simp [wordAt, readBlocks, resolve, h, Block.load, List.head?_take]
  · simp [wordAt, readBlocks, resolve, h]

theorem readBlocks_length {bs : List Block} {start count : Nat} {vs : List Word}
    (h : readBlocks bs start count = some vs) : vs.length = count := by
  unfold readBlocks at h
  split at h
  case h_1 b o hr =>
    cases h
    obtain ⟨-, hc, rfl⟩ := resolve_cases hr
    exact Block.load_length hc
  case h_2 => cases h

theorem Memory.reg_eq_wordAt (m : Memory) (a : Nat) (sp : Space) (i : Nat) :
    m.reg a sp i = (m.bank a).bind (fun bk => wordAt (bk.blocks sp) i) := by
  cases hbk : m.bank a with
  | none => simp [Memory.reg, Memory.read, hbk]
  | some bk =>
    cases hr : readBlocks (bk.blocks sp) i 1 with
    | none => simp [Memory.reg, Memory.read, Bank.read, wordAt, hbk, hr]
    | some vs =>
      obtain ⟨w, rfl⟩ := List.length_eq_one_iff.1 (readBlocks_length hr)
      simp [Memory.reg, Memory.read, Bank.read, wordAt, hbk, hr]

theorem Block.store_contains {b : Block} {o start count : Nat} {values : List Word}
    (h : o + values.length ≤ b.length) :
    (b.store o values).contains start count = b.contains start count := by
  simp [Block.contains, Block.store_length h]

theorem Block.store_data_getElem? {b : Block} {o : Nat} {values : List Word}
    (h : o + values.length ≤ b.length) (k : Nat) :
    (b.store o values).data[k]? =
      if o ≤ k ∧ k < o + values.length then values[k - o]? else b.data[k]? := by
  have hlen : (b.data.take o).length = o := by
    rw [Block.length] at h
    rw [List.length_take]
    omega
  have hdata : (b.store o values).data =
    b.data.take o ++ (values ++ b.data.drop (o + values.length)) := List.append_assoc ..
  rcases Nat.lt_or_ge k o with hlt | hge
  · rw [hdata, List.getElem?_append_left (by omega), List.getElem?_take_of_lt hlt,
      if_neg (by omega)]
  · rw [hdata, List.getElem?_append_right (by omega), hlen]
    rcases Nat.lt_or_ge (k - o) values.length with hin | hout
    · rw [List.getElem?_append_left hin, if_pos (by omega)]
    · rw [List.getElem?_append_right hout, List.getElem?_drop, if_neg (by omega)]
      congr 1
      omega

theorem writeBlocks_cons_cases {start : Nat} {b : Block} {bs bs' : List Block} {values : List Word}
    (h : writeBlocks (b :: bs) start values = some bs') :
    (b.contains start values.length = true ∧ bs' = b.store (start - b.start) values :: bs) ∨
    (b.contains start values.length = false ∧
      ∃ bs₁, writeBlocks bs start values = some bs₁ ∧ bs' = b :: bs₁) := by
  rw [writeBlocks] at h
  split at h
  case isTrue hc => exact .inl ⟨hc, by simpa using h.symm⟩
  case isFalse hc =>
    split at h
    case h_1 bs₁ hw => exact .inr ⟨by simpa using hc, bs₁, hw, by simpa using h.symm⟩
    case h_2 => cases h

/-- Where the blocks of one space lie, less what they hold. -/
def blockShapes (bs : List Block) : List (Nat × Nat) := bs.map (fun b => (b.start, b.length))

theorem writeBlocks_blockShapes {start : Nat} {bs bs' : List Block} {values : List Word}
    (h : writeBlocks bs start values = some bs') : blockShapes bs' = blockShapes bs := by
  induction bs generalizing bs' with
  | nil => cases h
  | cons b bs ih =>
    rcases writeBlocks_cons_cases h with ⟨hc, rfl⟩ | ⟨-, bs₁, hw, rfl⟩
    · rw [Block.contains_iff] at hc
      have hlen : (b.store (start - b.start) values).length = b.length :=
        Block.store_length (by omega)
      simp [blockShapes, hlen]
    · exact congrArg ((b.start, b.length) :: ·) (ih hw)

/-- After a store, the registers of the range hold the values and every other one is as before. -/
theorem writeBlocks_wordAt {lo start : Nat} {bs bs' : List Block} {values : List Word}
    (hwf : blocksWf lo bs = true) (h : writeBlocks bs start values = some bs') (i : Nat) :
    wordAt bs' i =
      if start ≤ i ∧ i < start + values.length then values[i - start]? else wordAt bs i := by
  induction bs generalizing lo bs' with
  | nil => cases h
  | cons b bs ih =>
    obtain ⟨-, hbs⟩ := blocksWf_cons.1 hwf
    rcases writeBlocks_cons_cases h with ⟨hc, rfl⟩ | ⟨-, bs₁, hw, rfl⟩
    · rw [Block.contains_iff] at hc
      have hfit : start - b.start + values.length ≤ b.length := by omega
      rw [wordAt_cons, wordAt_cons, Block.store_contains hfit, Block.store_start,
        Block.store_data_getElem? hfit]
      by_cases hi : b.contains i 1 = true
      · have hstart : b.start ≤ i := ((Block.contains_iff b i 1).1 hi).1
        have hoff : i - b.start - (start - b.start) = i - start := by omega
        simp only [hi, if_true, hoff]
        congr 1
        apply propext
        omega
      · rw [if_neg hi, if_neg hi, if_neg]
        rw [Block.contains_iff] at hi
        omega
    · rw [wordAt_cons, wordAt_cons, ih hbs hw]
      by_cases hi : b.contains i 1 = true
      · -- the range lies in a later block, so it does not reach back to `i`
        obtain ⟨c, hcmem, hc⟩ := writeBlocks_contained hw
        have hlater := blocksWf_start_le hbs hcmem
        rw [if_pos hi, if_pos hi, if_neg]
        rw [Block.contains_iff] at hi hc
        omega
      · rw [if_neg hi, if_neg hi]

/-! ### A store into one space of one slave -/

theorem Bank.store_wordAt {bk bk' : Bank} {sp : Space} {start : Nat} {values : List Word}
    (hwf : bk.wf = true) (h : bk.store sp start values = .ok bk') (sp' : Space) (i : Nat) :
    wordAt (bk'.blocks sp') i =
      if sp' = sp ∧ start ≤ i ∧ i < start + values.length then values[i - start]?
      else wordAt (bk.blocks sp') i := by
  obtain ⟨bs', hw, rfl⟩ := Bank.store_cases h
  by_cases hsp : sp' = sp
  · subst hsp
    rw [Bank.setBlocks_blocks, writeBlocks_wordAt ((Bank.wf_iff bk).1 hwf sp') hw i]
    simp
  · rw [Bank.setBlocks_other bk bs' hsp, if_neg (fun hin => hsp hin.1)]

theorem Bank.store_blockShapes {bk bk' : Bank} {sp : Space} {start : Nat} {values : List Word}
    (h : bk.store sp start values = .ok bk') (sp' : Space) :
    blockShapes (bk'.blocks sp') = blockShapes (bk.blocks sp') := by
  obtain ⟨bs', hw, rfl⟩ := Bank.store_cases h
  by_cases hsp : sp' = sp
  · subst hsp
    rw [Bank.setBlocks_blocks, writeBlocks_blockShapes hw]
  · rw [Bank.setBlocks_other bk bs' hsp]

theorem layout_setBank {m : Memory} {a : Nat} {bk bk' : Bank} (hbk : m.bank a = some bk)
    (hshape : ∀ sp, blockShapes (bk'.blocks sp) = blockShapes (bk.blocks sp)) :
    layout (m.setBank a bk') = layout m := by
  induction m with
  | nil => rfl
  | cons e m ih =>
    obtain ⟨x, bx⟩ := e
    by_cases hx : x = a
    · simp only [Memory.bank, hx, if_true, Option.some.injEq] at hbk
      subst hbk
      have hhold : blockShapes bk'.hold = blockShapes bx.hold := hshape .holding
      have hinp : blockShapes bk'.inp = blockShapes bx.inp := hshape .input
      simp only [blockShapes] at hhold hinp
      simp [Memory.setBank, hx, layout, hhold, hinp]
    · simp only [Memory.bank, hx, if_false] at hbk
      have hrest := ih hbk
      simp only [layout] at hrest
      simp [Memory.setBank, hx, layout, hrest]

/-- What a store into a slave's bank leaves in the table, in either space (rules R276 and R277). -/
theorem written_setBank {m : Memory} {a start : Nat} {sp : Space} {bk bk' : Bank}
    {values : List Word} (hm : m.wf = true) (hbk : m.bank a = some bk)
    (h : bk.store sp start values = .ok bk') : written m (m.setBank a bk') a sp start values := by
  refine ⟨layout_setBank hbk (Bank.store_blockShapes h), fun a' sp' i => ?_⟩
  rw [Memory.reg_eq_wordAt, Memory.reg_eq_wordAt]
  by_cases ha : a' = a
  · subst ha
    rw [Memory.bank_setBank_same hbk, hbk]
    simp [Bank.store_wordAt (Memory.bank_wf hm hbk) h sp' i]
  · rw [Memory.bank_setBank_other ha, if_neg (fun hin => ha hin.1)]

theorem Memory.write_written {m m' : Memory} {a start : Nat} {sp : Space} {values : List Word}
    (hm : m.wf = true) (h : m.write a sp start values = .ok m') :
    written m m' a sp start values := by
  obtain ⟨bk, bk', hbk, hw, rfl⟩ := Memory.write_cases h
  obtain ⟨rfl, hstore⟩ := Bank.write_cases hw
  exact written_setBank hm hbk hstore

/-! ### The read functions (rules R240 to R242) -/

/-- `mk` is a read function: code `fc`, registers of `sp`, answered with `mkRsp`. -/
structure IsRead (mk : Byte → ReadOperands → Instr) (mkRsp : Byte → List Word → Instr)
    (fc : Byte) (sp : Space) : Prop where
  addr : ∀ a ops, (mk a ops).addr = a
  pdu : ∀ a ops, (mk a ops).pdu = fc :: encodeReadOperands ops
  rspAddr : ∀ a vs, (mkRsp a vs).addr = a
  rspPdu : ∀ a vs, (mkRsp a vs).pdu = fc :: encodeReadResponse vs
  exec_eq : ∀ a ops s, exec (mk a ops) s =
    .next (s.route (mk a ops) s (s.executeRead (mk a ops) sp ops (mkRsp a)))

theorem isRead_rhr : IsRead .rhr .rhrRsp 0x03#8 .holding :=
  ⟨fun _ _ => rfl, fun _ _ => rfl, fun _ _ => rfl, fun _ _ => rfl, fun _ _ _ => rfl⟩

theorem isRead_rir : IsRead .rir .rirRsp 0x04#8 .input :=
  ⟨fun _ _ => rfl, fun _ _ => rfl, fun _ _ => rfl, fun _ _ => rfl, fun _ _ _ => rfl⟩

theorem State.executeRead_eq_respond {s : State} {req : Instr} {sp : Space} {start count : Word}
    {vs : List Word} (answer : List Word → Instr) (hmin : 1 ≤ count.toNat)
    (hmax : count.toNat ≤ Config.maxReadCount)
    (hr : s.slaves.read req.addr.toNat sp start.toNat count.toNat = .ok vs)
    (hf : s.internalFault req.addr req.pdu = false) :
    s.executeRead req sp (.fields start count) answer = s.respond req (answer vs) := by
  have hrange : readRange (.fields start count) = .ok (start, count.toNat) := by
    rw [readRange, if_neg (by omega)]
  simp [State.executeRead, hrange, hr, hf, hmax]

section
variable {mk : Byte → ReadOperands → Instr} {mkRsp : Byte → List Word → Instr} {fc : Byte}
  {sp : Space} (hmk : IsRead mk mkRsp fc sp)
include hmk

/-- A read that passes the checks c2 to c6 is answered with the words read. -/
theorem IsRead.exec_eq_answered {s : State} {a : Byte} {start count : Word} {vs : List Word}
    (ha : a ≠ 0x00#8) (hreg : s.registered a.toNat = true)
    (hmin : 1 ≤ count.toNat) (hmax : count.toNat ≤ Config.maxReadCount)
    (hr : s.slaves.read a.toNat sp start.toNat count.toNat = .ok vs)
    (hf : (a, readPdu fc start count) ∉ s.params.internalFault) :
    exec (mk a (.fields start count)) s =
      .next (answered s a (readPdu fc start count) (fc :: encodeReadResponse vs)) := by
  have haddr := hmk.addr a (.fields start count)
  have hpdu : (mk a (.fields start count)).pdu = readPdu fc start count := hmk.pdu _ _
  have hsilent : s.internalFault (mk a (.fields start count)).addr
      (mk a (.fields start count)).pdu = false := by
    rw [haddr, hpdu]
    exact State.internalFault_eq_false hf
  rw [hmk.exec_eq, State.route_registered _ _ (by rwa [haddr]) (by rwa [haddr]),
    State.executeRead_eq_respond _ hmin hmax (by rwa [haddr]) hsilent,
    State.respond_eq_answered s ((hmk.rspAddr a vs).trans haddr.symm), haddr, hpdu, hmk.rspPdu]

theorem IsRead.readSucceeds : readSucceeds mk fc sp := by
  intro s a start count bk b hwf ha hbk hmin hmax hb hcov hf
  have hc : b.contains start.toNat count.toNat = true := hcov
  have hlen := Block.load_length hc
  have hread := Memory.read_of_contains hwf hbk hb hmin hc
  have hexec := hmk.exec_eq_answered ha (State.registered_of_bank hbk) hmin hmax hread hf
  rw [encodeReadResponse, hlen] at hexec
  refine ⟨_, rfl, ?_, hexec⟩
  rw [Block.load] at hlen
  simp [hlen]
  omega

end

/-- Settles O28: both are read functions, and a read of a contained range is its words. -/
theorem readsAnswerWithTheWords : Obligations.ReadsAnswerWithTheWords :=
  ⟨isRead_rhr.readSucceeds, isRead_rir.readSucceeds⟩

/-! ### The write function (rules R240 and R243) -/

theorem State.executeWrite_eq_respond {s : State} {req : Instr} {start : Word} {values : List Word}
    {m : Memory} (hv : values ≠ [])
    (hw : s.slaves.write req.addr.toNat .holding start.toNat values = .ok m)
    (hf : s.internalFault req.addr req.pdu = false) :
    s.executeWrite req (.fields start values) =
      (s.setSlaves m).respond req (.wmrRsp req.addr start (BitVec.ofNat 16 values.length)) := by
  have hrange : writeRange (.fields start values) = .ok (start, values) := by
    rw [writeRange, if_neg (by simpa using hv)]
  simp [State.executeWrite, hrange, hw, hf]

/-- A write that passes the checks c2 to c6 stores, and is answered with its start and count. -/
theorem exec_wmr_eq_answered {s : State} {a : Byte} {start : Word} {values : List Word} {m : Memory}
    (ha : a ≠ 0x00#8) (hreg : s.registered a.toNat = true) (hv : values ≠ [])
    (hw : s.slaves.write a.toNat .holding start.toNat values = .ok m)
    (hf : (a, writePdu start values) ∉ s.params.internalFault) :
    exec (.wmr a (.fields start values)) s = .next (answered { s with slaves := m } a
      (writePdu start values) (writeRspPdu start (BitVec.ofNat 16 values.length))) := by
  have hroute := State.route_registered (req := .wmr a (.fields start values))
    (s.executeBroadcastWrite (.fields start values))
    (s.executeWrite (.wmr a (.fields start values)) (.fields start values)) ha hreg
  have hwrite := State.executeWrite_eq_respond (req := .wmr a (.fields start values)) hv hw
    (State.internalFault_eq_false hf)
  have hanswer := State.respond_eq_answered (s.setSlaves m)
    (req := .wmr a (.fields start values))
    (rsp := .wmrRsp a start (BitVec.ofNat 16 values.length)) rfl
  exact congrArg _ (hroute.trans (hwrite.trans hanswer))

theorem encode_wmr_extract (a : Byte) (start : Word) (values : List Word) :
    (encode (.wmr a (.fields start values))).extract 2 6 = [hi start, lo start,
      hi (BitVec.ofNat 16 values.length), lo (BitVec.ofNat 16 values.length)] := rfl

/-- Settles O30: the write of a contained range succeeds, and `written` says what it stored. -/
theorem writesStoreAndEchoStartAndCount : Obligations.WritesStoreAndEchoStartAndCount := by
  intro s a start values hwf ha hv hcont hf
  obtain ⟨bk, -, hbk, -⟩ := contained_iff.1 hcont
  obtain ⟨m', hw⟩ := Memory.write_of_contained hcont
  refine ⟨m', writeRspPdu start (BitVec.ofNat 16 values.length), ?_, rfl, rfl,
    exec_wmr_eq_answered ha (State.registered_of_bank hbk) hv hw hf, Memory.write_written hwf hw⟩
  rw [encode_wmr_extract, writeRspPdu]

end Sys2Proof.Machine
end

section
/-! PROOFS. The statements of 40_crc.md: a sequence with its CRC appended verifies, and the source's
test vector. -/

namespace Sys2Proof.Machine

/-! ### The checker (rules R144 and R145) -/

/-- Settles O6: the checker finds the sequence and its CRC where `crcAppend` put them. -/
theorem appendedCrcVerifies : Obligations.AppendedCrcVerifies := verify_crcAppend

/-! ### The source's vector (rule R147) -/

theorem crc16_sourceVector : crc16 [0x01, 0x03, 0x00, 0x00, 0x00, 0x01] = 0x0A84#16 := by
  decide +kernel

/-- Settles O8: the wire order is `crcAppend`'s, low byte first. -/
theorem sourceCrcVector : Obligations.SourceCrcVector := by
  refine ⟨crc16_sourceVector, ?_⟩
  rw [crcAppend, crc16_sourceVector]
  rfl

end Sys2Proof.Machine
end

section
/-! PROOFS. The statements of 41_frame_assembler.md about a byte that joins a frame and about the tick
that completes one. -/

namespace Sys2Proof.Machine

open Sys2Proof.Claims

/-! ### Bytes (rules R162 and R163) -/

theorem State.rxByte_idle {s : State} (b : Byte) (hrun : s.run = true)
    (hidle : s.asm.state = .idle) : s.rxByte b = s.setAsm (Assembler.first b) := by
  simp [State.rxByte, hrun, hidle]

theorem State.rxByte_append {s : State} (b : Byte) (hrun : s.run = true)
    (hrecv : s.asm.state = .receiving) (hgap : s.asm.sil < s.params.tIC)
    (hlen : s.asm.len < Config.maxFrame) :
    s.rxByte b = s.setAsm { state := .receiving, buf := s.asm.buf ++ [b], sil := 0 } := by
  simp [State.rxByte, hrun, hrecv, Nat.not_le_of_lt hgap, hlen]

/-- Settles O15: once the event is taken, each clause is one branch of `rxByte`. -/
theorem bytesStartAndExtendAFrame : Obligations.BytesStartAndExtendAFrame := by
  intro s b es hrun hin
  have hstep : step s = .next ((s.setInputs es).rxByte b) := step_cons hin
  refine ⟨fun hidle => ?_, fun hrecv hgap hlen => ?_⟩
  · exact hstep.trans (congrArg _ (State.rxByte_idle b hrun hidle))
  · exact hstep.trans (congrArg _ (State.rxByte_append b hrun hrecv hgap hlen))

/-! ### The tick that completes a frame (rule R168) -/

/-- The tick that ends the silence dispatches the buffer from the emptied assembler. -/
theorem tickEvent_of_frameEnds {s : State} (hends : s.frameEnds = true)
    (hlen : Config.minFrame ≤ s.asm.len) :
    tickEvent s = dispatch s.asm.buf (s.setAsm Assembler.empty) := by
  rw [tickEvent, if_pos hends, if_neg (Nat.not_lt_of_le hlen)]

theorem step_of_completes {s : State} {es : List Event} (h : completes s es)
    (hlen : Config.minFrame ≤ s.asm.len) : step s = dispatch s.asm.buf (ready s es) := by
  obtain ⟨hin, hrun, hrecv, hsil⟩ := h
  have hends : (s.setInputs es).frameEnds = true :=
    (State.frameEnds_iff _).2 ⟨hrun, hrecv, hsil.ge⟩
  exact (step_cons hin).trans (tickEvent_of_frameEnds hends hlen)

/-- Settles O20: the completing tick dispatches the buffer, and the dispatcher runs what it reads. -/
theorem stepRunsTheDecodedRequest : Obligations.StepRunsTheDecodedRequest := by
  intro s es hc hlen
  have hstep : step s = dispatch s.asm.buf (ready s es) := step_of_completes hc hlen
  exact ⟨hstep, fun i hi => hstep.trans (dispatch_of_decode (ready s es) hi)⟩

end Sys2Proof.Machine
end

section
/-! PROOFS. The statements of 42_dispatcher.md about corrupt frames, foreign frames and the one
response a step emits: the frame of the request that is dispatched is the frame received, and every
event emits at most what one path through the dispatcher does. -/

namespace Sys2Proof.Machine

open Sys2Proof.Claims

/-! ### A frame that verifies is the frame of the request it holds (rules R101, R111 and R116) -/

theorem frameError_eq_none_iff (f : List Byte) : frameError f = none ↔
    Config.minFrame ≤ f.length ∧ f.length ≤ Config.maxFrame ∧ verify f = true := by
  unfold frameError
  split
  case isTrue h => simp [Nat.not_le_of_lt h]
  case isFalse hmin =>
    split
    case isTrue h => simp [Nat.not_le_of_lt h]
    case isFalse hmax =>
      have hv : (if verify f then none else some DecodeError.crcMismatch) = none ↔
          verify f = true := by
        cases verify f <;> simp
      rw [hv]
      simp [Nat.le_of_not_lt hmin, Nat.le_of_not_lt hmax]

theorem decode_eq_ok_iff {f : List Byte} {i : Instr} :
    decode f = .ok i ↔ frameError f = none ∧ decodeVerified f = i := by
  unfold decode
  cases frameError f <;> simp

theorem exists_crcAppend_of_verify {f : List Byte} (h : verify f = true) :
    ∃ bs, f = crcAppend bs := by
  simp only [verify, Bool.and_eq_true, decide_eq_true_eq, beq_iff_eq] at h
  obtain ⟨hlen, hcrc⟩ := h
  have hlast : f.drop (f.length - 2) = [f.getD (f.length - 2) 0, f.getD (f.length - 1) 0] := by
    rw [List.drop_eq_getElem_cons (by omega), List.drop_eq_getElem_cons (by omega),
      List.drop_eq_nil_of_le (by omega), List.getD_eq_getElem _ _ (by omega),
      List.getD_eq_getElem _ _ (by omega)]
    simp only [show f.length - 2 + 1 = f.length - 1 by omega]
  refine ⟨f.take (f.length - 2), ?_⟩
  rw [crcAppend, hcrc, hi_be16, lo_be16, ← hlast, List.take_append_drop]

theorem exists_frame_of_verify {f : List Byte} (hv : verify f = true)
    (hlen : Config.minFrame ≤ f.length) : ∃ a fc p, f = crcAppend (a :: fc :: p) := by
  obtain ⟨bs, rfl⟩ := exists_crcAppend_of_verify hv
  rw [crcAppend_length] at hlen
  match bs, hlen with
  | a :: fc :: p, _ => exact ⟨a, fc, p, rfl⟩

@[simp] theorem encodeReadOperands_decodeReadOperands (p : List Byte) :
    encodeReadOperands (decodeReadOperands p) = p := by
  unfold decodeReadOperands
  split
  case h_1 => simp [encodeReadOperands]
  case h_2 => rfl

@[simp] theorem encodeWriteOperands_decodeWriteOperands (p : List Byte) :
    encodeWriteOperands (decodeWriteOperands p) = p := by
  unfold decodeWriteOperands
  split
  case h_2 => rfl
  case h_1 startHi startLo countHi countLo byteCount vs =>
    split
    case isFalse => rfl
    case isTrue h =>
      obtain ⟨hbytes, hvs⟩ := h
      have hcount : (bytePairs vs).length = (be16 countHi countLo).toNat := by
        rw [bytePairs_length]
        omega
      simp [encodeWriteOperands, hcount, ← hbytes, wordBytes_bytePairs vs (by omega)]

/-- Every function code and payload becomes a request, and no byte of the PDU is lost. -/
theorem decodeRequest_fields (a fc : Byte) (p : List Byte) :
    (decodeRequest a fc p).isRequest = true ∧ (decodeRequest a fc p).addr = a ∧
      (decodeRequest a fc p).pdu = fc :: p := by
  unfold decodeRequest
  split_ifs with h3 h4 h10 h6
  · simp [Instr.isRequest, Instr.addr, Instr.pdu, h3]
  · simp [Instr.isRequest, Instr.addr, Instr.pdu, h4]
  · simp [Instr.isRequest, Instr.addr, Instr.pdu, h10]
  · simp [Instr.isRequest, Instr.addr, Instr.pdu, h6]
  · exact ⟨rfl, rfl, rfl⟩

theorem decodeVerified_isRequest (f : List Byte) : (decodeVerified f).isRequest = true :=
  (decodeRequest_fields _ _ _).1

theorem encode_decodeVerified {f : List Byte} (hv : verify f = true)
    (hlen : Config.minFrame ≤ f.length) : encode (decodeVerified f) = f := by
  obtain ⟨a, fc, p, rfl⟩ := exists_frame_of_verify hv hlen
  obtain ⟨-, haddr, hpdu⟩ := decodeRequest_fields a fc p
  rw [decodeVerified, splitFrame_crcAppend, encode, haddr, hpdu]

/-! ### Corrupt frames and foreign frames (rules R202 and R205) -/

/-- Settles O22: the check comes first, so the completing tick's dispatch ends at the hook. -/
theorem corruptFrameOnlyRaisesTheHook : Obligations.CorruptFrameOnlyRaisesTheHook := by
  intro s es hc hlen hv
  have hhook : dispatch s.asm.buf (ready s es) =
      .next ((ready s es).emit (.errorHook .crcMismatch s.asm.buf)) := by
    simp [dispatch, hv]
  exact (step_of_completes hc hlen).trans hhook

/-- Routing comes before the function is looked at, so all requests to a missing slave end alike
(rules R205 and R206). -/
theorem exec_of_missing {s : State} {i : Instr} (hreq : i.isRequest = true)
    (ha : i.addr ≠ 0x00#8) (hr : s.registered i.addr.toNat = false) :
    exec i s = .next (s.missingSlave i) := by
  have hroute : ∀ onBroadcast onSlave, s.route i onBroadcast onSlave = s.missingSlave i := by
    intro onBroadcast onSlave
    have hb : ¬ i.addr = Config.addrBroadcast := ha
    rw [State.route, if_neg hb, hr, if_neg Bool.false_ne_true]
  cases i with
  | rhr | rir | wmr | wsr | illegal => exact congrArg _ (hroute _ _)
  | rhrRsp | rirRsp | wmrRsp | exc => cases hreq

/-- Settles O23: the frame's request is routed to a missing slave, which the mode off ignores. -/
theorem foreignFramesAreIgnored : Obligations.ForeignFramesAreIgnored := by
  intro s es i hc hi ha hr hmode
  obtain ⟨hframe, rfl⟩ := decode_eq_ok_iff.1 hi
  obtain ⟨hlen, -, -⟩ := (frameError_eq_none_iff _).1 hframe
  have hexec : exec (decodeVerified s.asm.buf) (ready s es) =
      .next ((ready s es).missingSlave (decodeVerified s.asm.buf)) :=
    exec_of_missing (decodeVerified_isRequest _) ha hr
  have hignored : (ready s es).missingSlave (decodeVerified s.asm.buf) = ready s es := by
    rw [State.missingSlave, if_neg (by simpa [ready] using hmode)]
  rw [step_of_completes hc hlen, dispatch_of_decode _ hi, hexec, hignored]

/-! ### What a request emits (rules R204 to R206, R210 and R214) -/

/-- Between `s` and `t` the request `req` has been answered: `RequestHandled`, then `Tx` of the frame
of the reported response PDU. -/
def Answers (req : Instr) (s t : State) : Prop :=
  ∃ rsp, t.outputs = s.outputs ++
    [.requestHandled req.addr req.pdu rsp, .tx (crcAppend (req.addr :: rsp))]

theorem State.respond_answers (s : State) {req rsp : Instr} (h : rsp.addr = req.addr) :
    Answers req s (s.respond req rsp) :=
  ⟨rsp.pdu, by rw [State.respond_outputs, encode, h]⟩

theorem State.takeException_answers (s : State) (req : Instr) (code : ExcCode) :
    Answers req s (s.takeException req code) :=
  s.respond_answers rfl

theorem State.executeRead_answers (s : State) {req : Instr} (sp : Space) (ops : ReadOperands)
    {answer : List Word → Instr} (h : ∀ vs, (answer vs).addr = req.addr) :
    Answers req s (s.executeRead req sp ops answer) := by
  obtain ⟨code, hexc⟩ | ⟨_, _, vs, -, -, -, -, -, hok⟩ := s.executeRead_cases req sp ops answer
  · rw [hexc]
    exact s.takeException_answers req code
  · rw [hok]
    exact s.respond_answers (h vs)

theorem State.executeWrite_answers (s : State) (req : Instr) (ops : WriteOperands) :
    Answers req s (s.executeWrite req ops) := by
  obtain ⟨code, hexc⟩ | ⟨_, _, m, -, -, -, -, hok⟩ := s.executeWrite_cases req ops
  · rw [hexc]
    exact s.takeException_answers req code
  · rw [hok]
    exact (s.setSlaves m).respond_answers rfl

theorem State.executeBroadcastWrite_outputs (s : State) (ops : WriteOperands) :
    (s.executeBroadcastWrite ops).outputs = s.outputs := by
  obtain h | ⟨_, _, -, -, h⟩ := s.executeBroadcastWrite_cases ops <;> rw [h]
  exact State.setSlaves_outputs _ _

/-- Everything a request can have emitted between `s` and `t`: nothing, one error hook, or the answer
of a registered slave. -/
def RequestEmits (req : Instr) (s t : State) : Prop :=
  t.outputs = s.outputs ∨ (∃ k f, t.outputs = s.outputs ++ [.errorHook k f]) ∨
    (req.addr ≠ Config.addrBroadcast ∧ s.registered req.addr.toNat = true ∧ Answers req s t)

theorem State.route_emits {s onBroadcast onSlave : State} {req : Instr}
    (hb : onBroadcast.outputs = s.outputs) (hs : Answers req s onSlave) :
    RequestEmits req s (s.route req onBroadcast onSlave) := by
  obtain ⟨-, h⟩ | ⟨ha, hr, h⟩ | ⟨-, -, h⟩ := s.route_cases req onBroadcast onSlave <;> rw [h]
  · exact .inl hb
  · exact .inr (.inr ⟨ha, hr, hs⟩)
  · obtain ⟨-, hm⟩ | ⟨-, hm⟩ := s.missingSlave_cases req <;> rw [hm]
    · exact .inl rfl
    · exact .inr (.inl ⟨_, _, rfl⟩)

theorem exec_emits {s t : State} {i : Instr} (hreq : i.isRequest = true)
    (h : exec i s = .next t) : RequestEmits i s t := by
  cases i with
  | rhr a ops =>
    cases h
    exact State.route_emits rfl (s.executeRead_answers .holding ops fun _ => rfl)
  | rir a ops =>
    cases h
    exact State.route_emits rfl (s.executeRead_answers .input ops fun _ => rfl)
  | wmr a ops =>
    cases h
    exact State.route_emits (s.executeBroadcastWrite_outputs ops) (s.executeWrite_answers _ ops)
  | wsr a p =>
    cases h
    exact State.route_emits rfl (s.takeException_answers _ _)
  | illegal a fc p =>
    cases h
    exact State.route_emits rfl (s.takeException_answers _ _)
  | rhrRsp | rirRsp | wmrRsp | exc => cases hreq

/-! ### What the assembler and the host commands emit (rules R171 and R303) -/

theorem State.rxByte_outputs (s : State) (b : Byte) :
    (s.rxByte b).outputs = s.outputs ∨ ∃ r, (s.rxByte b).outputs = s.outputs ++ [.asmDrop r] := by
  obtain ⟨-, h⟩ | ⟨-, -, h⟩ | ⟨-, -, -, h⟩ | ⟨-, -, -, -, h⟩ | ⟨-, -, -, -, h⟩ :=
    s.rxByte_cases b <;> rw [h]
  · exact .inl rfl
  · exact .inl rfl
  · exact .inr ⟨_, rfl⟩
  · exact .inl rfl
  · exact .inr ⟨_, rfl⟩

theorem State.countTick_outputs (s : State) : s.countTick.outputs = s.outputs := by
  obtain ⟨-, h⟩ | ⟨-, -, h⟩ := s.countTick_cases <;> rw [h]
  exact State.setAsm_outputs _ _

/-- A host command ends in one result: the only output between `s` and `t`. -/
def ReturnsResult (s t : State) : Prop := ∃ r, t.outputs = s.outputs ++ [.result r]

theorem State.result_returns (s : State) (r : HostResult) : ReturnsResult s (s.result r) := ⟨r, rfl⟩

theorem State.configError_returns (s : State) (e : ConfigError) :
    ReturnsResult s (s.configError e) := ⟨.error e, rfl⟩

theorem State.setSlaves_result_returns (s : State) (m : Memory) (r : HostResult) :
    ReturnsResult s ((s.setSlaves m).result r) := ⟨r, rfl⟩

theorem State.addSlave_returns (s : State) (a : Nat) : ReturnsResult s (s.addSlave a) := by
  unfold State.addSlave
  split_ifs
  · exact s.configError_returns _
  · exact s.configError_returns _
  · exact s.setSlaves_result_returns _ _

theorem State.removeSlave_returns (s : State) (a : Nat) : ReturnsResult s (s.removeSlave a) := by
  unfold State.removeSlave
  split_ifs
  · exact s.setSlaves_result_returns _ _
  · exact s.configError_returns _

theorem State.addBlock_returns (s : State) (a : Nat) (sp : Space) (start : Word) (length : Nat) :
    ReturnsResult s (s.addBlock a sp start length) := by
  unfold State.addBlock
  cases s.slaves.bank a with
  | none => exact s.configError_returns _
  | some bk =>
    dsimp only
    split_ifs
    · exact s.configError_returns _
    · exact s.configError_returns _
    · exact s.setSlaves_result_returns _ _

theorem State.hostRead_returns (s : State) (a : Nat) (sp : Space) (start : Word) (count : Nat) :
    ReturnsResult s (s.hostRead a sp start count) := by
  unfold State.hostRead
  split_ifs
  · exact s.configError_returns _
  · cases s.slaves.read a sp start.toNat count with
    | ok vs => exact s.result_returns _
    | error e => exact s.configError_returns _
  · exact s.configError_returns _

theorem State.hostWrite_returns (s : State) (a : Nat) (sp : Space) (start : Word)
    (values : List Word) : ReturnsResult s (s.hostWrite a sp start values) := by
  unfold State.hostWrite
  split_ifs
  · exact s.configError_returns _
  · cases s.slaves.hostStore a sp start.toNat values with
    | ok m => exact s.setSlaves_result_returns _ _
    | error e => exact s.configError_returns _
  · exact s.configError_returns _

theorem State.start_returns (s : State) : ReturnsResult s s.start := by
  unfold State.start
  split_ifs
  · exact s.configError_returns _
  · exact ⟨.ok, rfl⟩

theorem State.stop_returns (s : State) : ReturnsResult s s.stop := ⟨.ok, rfl⟩

theorem State.commandErrOnMissingSlave_returns (s : State) (v : Bool) :
    ReturnsResult s (s.commandErrOnMissingSlave v) := ⟨.ok, rfl⟩

/-! ### What a step emits (rule R214) -/

/-- What a step that does not answer a request can have emitted between `s` and `t`. -/
def EmitsAtMostOne (s t : State) : Prop :=
  t.outputs = s.outputs ∨ (∃ r, t.outputs = s.outputs ++ [.asmDrop r]) ∨
    (∃ k f, t.outputs = s.outputs ++ [.errorHook k f]) ∨ ReturnsResult s t

theorem ReturnsResult.emitsAtMostOne {s t : State} (h : ReturnsResult s t) : EmitsAtMostOne s t :=
  .inr (.inr (.inr h))

/-- Only a tick that ends the silence answers, and it answers the request whose frame is the buffer. -/
theorem tickEvent_emits {s t : State} (h : tickEvent s = .next t) :
    EmitsAtMostOne s t ∨ (s.frameEnds = true ∧ ∃ req, req.addr ≠ Config.addrBroadcast ∧
      s.registered req.addr.toNat = true ∧ encode req = s.asm.buf ∧ Answers req s t) := by
  obtain ⟨-, rfl⟩ | ⟨-, -, rfl⟩ | ⟨-, -, -, rfl⟩ | ⟨hends, hlen, hv, hexec⟩ := tickEvent_cases h
  · exact .inl (.inl s.countTick_outputs)
  · exact .inl (.inr (.inl ⟨_, rfl⟩))
  · exact .inl (.inr (.inr (.inl ⟨_, _, rfl⟩)))
  · obtain hnone | hhook | ⟨ha, hr, hans⟩ := exec_emits (decodeVerified_isRequest _) hexec
    · exact .inl (.inl hnone)
    · exact .inl (.inr (.inr (.inl hhook)))
    · exact .inr ⟨hends, _, ha, hr, encode_decodeVerified hv hlen, hans⟩

theorem handle_emits {e : Event} {s t : State} (he : e ≠ .tick) (h : handle e s = .next t) :
    EmitsAtMostOne s t := by
  cases e with
  | tick => exact absurd rfl he
  | reset => cases h; exact .inl s.resetEvent_outputs
  | rxByte b => cases h; exact (s.rxByte_outputs b).imp_right .inl
  | start => cases h; exact s.start_returns.emitsAtMostOne
  | stop => cases h; exact s.stop_returns.emitsAtMostOne
  | addSlave a => cases h; exact (s.addSlave_returns a).emitsAtMostOne
  | removeSlave a => cases h; exact (s.removeSlave_returns a).emitsAtMostOne
  | addBlock a sp start length => cases h; exact (s.addBlock_returns a sp start length).emitsAtMostOne
  | setErrOnMissingSlave v => cases h; exact (s.commandErrOnMissingSlave_returns v).emitsAtMostOne
  | hostRead a sp start count => cases h; exact (s.hostRead_returns a sp start count).emitsAtMostOne
  | hostWrite a sp start values =>
    cases h; exact (s.hostWrite_returns a sp start values).emitsAtMostOne

/-- Taking the event from `inputs` is no output, so what `handle` emits is what the step emits. -/
theorem step_emits {s t : State} (h : step s = .next t) :
    EmitsAtMostOne s t ∨ (s.inputs.head? = some .tick ∧ s.frameEnds = true ∧
      ∃ req, req.addr ≠ Config.addrBroadcast ∧ s.registered req.addr.toNat = true ∧
        encode req = s.asm.buf ∧ Answers req s t) := by
  cases hin : s.inputs with
  | nil =>
    rw [step_nil hin] at h
    cases h
    exact .inl (.inl rfl)
  | cons e es =>
    rw [step_cons hin] at h
    by_cases he : e = .tick
    · subst he
      obtain hone | hans := tickEvent_emits h
      · exact .inl hone
      · exact .inr ⟨rfl, hans⟩
    · exact .inl (handle_emits (s := s.setInputs es) he h)

/-- Settles O26: each way a step can emit is one of the listed ones, and the request it answers is
the one whose frame was received. -/
theorem atMostOneResponseAfterItsHook : Obligations.AtMostOneResponseAfterItsHook := by
  intro s t h
  obtain (hnone | ⟨r, hdrop⟩ | ⟨k, f, hhook⟩ | ⟨r, hres⟩) |
    ⟨htick, hends, req, ha, hr, hframe, rsp, hans⟩ := step_emits h
  · exact ⟨[], by rw [hnone, List.append_nil], .inl rfl⟩
  · exact ⟨_, hdrop, .inr (.inl ⟨r, rfl⟩)⟩
  · exact ⟨_, hhook, .inr (.inr (.inl ⟨k, f, rfl⟩))⟩
  · exact ⟨_, hres, .inr (.inr (.inr (.inl ⟨r, rfl⟩)))⟩
  · obtain ⟨hrun, hrecv, hsil⟩ := s.frameEnds_iff.1 hends
    exact ⟨_, hans, .inr (.inr (.inr (.inr ⟨req.addr, req.pdu, rsp, rfl, htick, hrun, hrecv, hsil, ha,
      hr, hframe.symm⟩)))⟩

end Sys2Proof.Machine
end

section
/-! PROOFS. The statement of 43_functions.md about every other function code. -/

namespace Sys2Proof.Machine

open Sys2Proof.Claims

/-- A function byte with bit 7 set is its own exception function byte (rules R113 and R245). -/
theorem or_exceptionBit_eq_self {fc : Byte} (h : fc.getLsbD 7 = true) : fc ||| 0x80#8 = fc := by
  have hpow : 0x80#8 = BitVec.twoPow 8 7 := rfl
  rw [hpow]
  ext i hi
  by_cases hi7 : i = 7
  · subst hi7
    simpa using h
  · simp [hi7]

/-- Settles O32: no check looks at the payload, and bit 7 is set already where the request has it. -/
theorem otherFunctionsAnswerIllegalFunction : Obligations.OtherFunctionsAnswerIllegalFunction := by
  intro s a fc p ha hr
  have hexec := exec_illegal_registered fc p ha hr
  refine ⟨hexec, fun hbit => ?_⟩
  rwa [or_exceptionBit_eq_self hbit] at hexec

end Sys2Proof.Machine
end

section
/-! PROOFS. The statements of 44_register_bank_and_host.md about a range of registers: the one block
that contains it, reading it, and storing it all or not at all, from the bus or from the host. -/

namespace Sys2Proof.Machine

open Sys2Proof.Claims

/-! ### Resolving a range (rule R274) -/

/-- The statements and the model say in the same words that a block contains a range (rule R64). -/
theorem covers_eq_contains : covers = Block.contains := rfl

theorem resolve_eq_some_iff {lo start count o : Nat} {bs : List Block} {b : Block}
    (hwf : blocksWf lo bs = true) (hcount : 1 ≤ count) :
    resolve bs start count = some (b, o) ↔
      b ∈ bs ∧ b.contains start count = true ∧ o = start - b.start := by
  refine ⟨resolve_cases, ?_⟩
  rintro ⟨hb, hc, rfl⟩
  exact resolve_of_contains hwf hb hcount hc

theorem resolve_eq_none_iff {bs : List Block} {start count : Nat} :
    resolve bs start count = none ↔ ∀ b ∈ bs, b.contains start count = false := by
  refine ⟨resolve_none, fun hnone => ?_⟩
  rw [Option.eq_none_iff_forall_ne_some]
  rintro ⟨b, o⟩ hr
  obtain ⟨hb, hc, -⟩ := resolve_cases hr
  simp [hnone b hb] at hc

/-- Settles O10: `resolve` finds any block that contains the range, so two such blocks are one. -/
theorem resolveFindsTheOneContainingBlock : Obligations.ResolveFindsTheOneContainingBlock := by
  intro bs start count hwf hcount
  rw [covers_eq_contains]
  refine ⟨fun b o => resolve_eq_some_iff hwf hcount, resolve_eq_none_iff, ?_⟩
  intro b hb b' hb' hc hc'
  have hr := resolve_of_contains hwf hb hcount hc
  rw [resolve_of_contains hwf hb' hcount hc'] at hr
  cases hr
  rfl

/-! ### Reading a range (rule R275) -/

theorem resolve_of_not_contained {m : Memory} {a start count : Nat} {sp : Space} {bk : Bank}
    (hbk : m.bank a = some bk) (h : contained m a sp start count = false) :
    resolve (bk.blocks sp) start count = none := by
  rw [resolve_eq_none_iff]
  intro b hb
  by_contra hc
  have hcont : contained m a sp start count = true :=
    contained_iff.2 ⟨bk, b, hbk, hb, Bool.eq_true_of_not_eq_false hc⟩
  simp [h] at hcont

theorem Memory.read_of_not_contained {m : Memory} {a start count : Nat} {sp : Space}
    (h : contained m a sp start count = false) :
    m.read a sp start count = .error .illegalAddress := by
  cases hbk : m.bank a with
  | none => simp [Memory.read, hbk]
  | some bk =>
    have hnone := resolve_of_not_contained hbk h
    simp [Memory.read, hbk, Bank.read, readBlocks, hnone]

/-- Settles O11: the block that contains the range is the one that is read. -/
theorem memReadGivesTheRange : Obligations.MemReadGivesTheRange := by
  intro m a bk sp start count hwf hbk hcount
  rw [covers_eq_contains]
  exact ⟨fun b hb hc => Memory.read_of_contains hwf hbk hb hcount hc, Memory.read_of_not_contained⟩

/-! ### Storing a range, all or nothing (rules R276 and R277) -/

/-- A bus write to the holding space is the store the host makes there. -/
theorem Memory.write_holding (m : Memory) (a start : Nat) (values : List Word) :
    m.write a .holding start values = m.hostStore a .holding start values := rfl

theorem Memory.write_input {m : Memory} {a : Nat} {bk : Bank} (start : Nat) (values : List Word)
    (hbk : m.bank a = some bk) : m.write a .input start values = .error .illegalFunction := by
  simp [Memory.write, hbk, Bank.write]

theorem Memory.hostStore_of_not_contained {m : Memory} {a start : Nat} {sp : Space}
    {values : List Word} (h : contained m a sp start values.length = false) :
    m.hostStore a sp start values = .error .illegalAddress := by
  cases hbk : m.bank a with
  | none => simp [Memory.hostStore, hbk]
  | some bk =>
    have hnone : writeBlocks (bk.blocks sp) start values = none := by
      rw [← Option.not_isSome_iff_eq_none, writeBlocks_isSome, resolve_of_not_contained hbk h]
      exact Bool.false_ne_true
    simp [Memory.hostStore, hbk, Bank.store, hnone]

theorem Memory.hostStore_of_contained {m : Memory} {a start : Nat} {sp : Space}
    {values : List Word} (h : contained m a sp start values.length = true) :
    ∃ m', m.hostStore a sp start values = .ok m' := by
  obtain ⟨bk, b, hbk, hb, hc⟩ := contained_iff.1 h
  obtain ⟨bs', hw⟩ := writeBlocks_of_contains hb hc
  exact ⟨m.setBank a (bk.setBlocks sp bs'), by simp [Memory.hostStore, hbk, Bank.store, hw]⟩

/-- Settles O12: the space is checked before the range and the range before the store, and `written`
says what a store leaves. -/
theorem memWriteStoresAllOrNothing : Obligations.MemWriteStoresAllOrNothing := by
  intro m a bk start values hwf hbk _
  refine ⟨Memory.write_input start values hbk, fun hout => ?_, fun hcont => ?_⟩
  · rw [Memory.write_holding, Memory.hostStore_of_not_contained hout]
  · obtain ⟨m', hw⟩ := Memory.write_of_contained hcont
    exact ⟨m', hw, Memory.write_written hwf hw⟩

/-! ### Reading back what was stored (rule R281) -/

theorem Block.load_store {b : Block} {o : Nat} (values : List Word) (h : o ≤ b.length) :
    (b.store o values).load o values.length = values := by
  have hlen : (b.data.take o).length = o := List.length_take_of_le h
  rw [Block.load, Block.store, List.append_assoc, List.drop_left' hlen, List.take_left]

/-- A store does not move the block it goes to, so the range resolves to it again. -/
theorem readBlocks_of_writeBlocks {start : Nat} {bs bs' : List Block} {values : List Word}
    (h : writeBlocks bs start values = some bs') :
    readBlocks bs' start values.length = some values := by
  induction bs generalizing bs' with
  | nil => cases h
  | cons b bs ih =>
    rcases writeBlocks_cons_cases h with ⟨hc, rfl⟩ | ⟨hc, bs₁, hw, rfl⟩
    · obtain ⟨hstart, hend⟩ := (Block.contains_iff b start values.length).1 hc
      have hfit : start - b.start + values.length ≤ b.length := by omega
      have hstored : (b.store (start - b.start) values).contains start values.length = true := by
        rw [Block.store_contains hfit, hc]
      have hload := Block.load_store values (Nat.le_of_add_right_le hfit)
      simp [readBlocks, resolve, hstored, hload]
    · have hread := ih hw
      simp only [readBlocks] at hread ⊢
      rw [resolve, if_neg (by simp [hc]), hread]

theorem Memory.read_of_hostStore {m m' : Memory} {a start : Nat} {sp : Space} {values : List Word}
    (h : m.hostStore a sp start values = .ok m') :
    m'.read a sp start values.length = .ok values := by
  obtain ⟨bk, bk', hbk, hstore, rfl⟩ := Memory.hostStore_cases h
  obtain ⟨bs', hw, rfl⟩ := Bank.store_cases hstore
  simp [Memory.read, Memory.bank_setBank_same hbk, Bank.read, readBlocks_of_writeBlocks hw]

/-! ### The host's accesses that succeed (rules R277 and R278) -/

theorem State.hostWrite_of_ok {s : State} {a : Nat} {sp : Space} {start : Word}
    {values : List Word} {m : Memory} (hv : values ≠ [])
    (h : s.slaves.hostStore a sp start.toNat values = .ok m) :
    s.hostWrite a sp start values = (s.setSlaves m).result .ok := by
  obtain ⟨bk, -, hbk, -, -⟩ := Memory.hostStore_cases h
  have hlen : ¬ values.length = 0 := by simpa using hv
  rw [State.hostWrite, if_pos (State.registered_of_bank hbk), if_neg hlen, h]

theorem State.hostRead_of_ok {s : State} {a count : Nat} {sp : Space} {start : Word}
    {vs : List Word} (hcount : count ≠ 0) (h : s.slaves.read a sp start.toNat count = .ok vs) :
    s.hostRead a sp start count = s.result (.value vs) := by
  obtain ⟨bk, -, hbk, -⟩ := Memory.read_cases h
  rw [State.hostRead, if_pos (State.registered_of_bank hbk), if_neg hcount, h]

theorem step_hostWrite_of_ok {s : State} {a : Nat} {sp : Space} {start : Word}
    {values : List Word} {es : List Event} {m : Memory}
    (hin : s.inputs = .hostWrite a sp start values :: es) (hv : values ≠ [])
    (h : s.slaves.hostStore a sp start.toNat values = .ok m) :
    step s = .next (((s.setInputs es).setSlaves m).result .ok) :=
  (step_cons hin).trans (congrArg _ (State.hostWrite_of_ok (s := s.setInputs es) hv h))

theorem step_hostRead_of_ok {s : State} {a count : Nat} {sp : Space} {start : Word}
    {vs : List Word} {es : List Event} (hin : s.inputs = .hostRead a sp start count :: es)
    (hcount : count ≠ 0) (h : s.slaves.read a sp start.toNat count = .ok vs) :
    step s = .next ((s.setInputs es).result (.value vs)) :=
  (step_cons hin).trans (congrArg _ (State.hostRead_of_ok (s := s.setInputs es) hcount h))

/-- A `HostWrite` that stores, and the `HostRead` of its range after it. -/
theorem steps_hostWrite_hostRead {s : State} {a : Nat} {sp : Space} {start : Word}
    {values : List Word} {es : List Event} {m : Memory} (hv : values ≠ [])
    (hin : s.inputs = .hostWrite a sp start values :: .hostRead a sp start values.length :: es)
    (h : s.slaves.hostStore a sp start.toNat values = .ok m) :
    steps 2 s = .next (emits { s with inputs := es, slaves := m }
      [.result .ok, .result (.value values)]) := by
  have hlen : values.length ≠ 0 := by simpa using hv
  rw [steps_succ (step_hostWrite_of_ok hin hv h),
    steps_succ (step_hostRead_of_ok rfl hlen (Memory.read_of_hostStore h))]
  simp [steps, State.result, State.emit, State.setInputs, State.setSlaves, emits]

/-- Settles O13: on both sides the store succeeds, and the table it leaves reads the values back. -/
theorem writeThenReadRoundTrip : Obligations.WriteThenReadRoundTrip := by
  constructor
  · intro m a start values _ _ hcont
    obtain ⟨m', hw⟩ := Memory.hostStore_of_contained hcont
    exact ⟨m', (Memory.write_holding m a start values).trans hw, Memory.read_of_hostStore hw⟩
  · intro s a sp start values es _ hv hcont hin
    obtain ⟨m', hw⟩ := Memory.hostStore_of_contained hcont
    exact ⟨m', steps_hostWrite_hostRead hv hin hw, Memory.read_of_hostStore hw⟩

end Sys2Proof.Machine
end

section
/-! PROOFS. The statement of 70_reset_and_hazards.md about `Stop` followed by `Start`. -/

namespace Sys2Proof.Machine

open Sys2Proof.Claims

/-! ### Stopping the loop, and starting a stopped one (rules R288 and R289) -/

theorem State.start_of_stopped {s : State} (h : s.run = false) :
    s.start = ((s.setRun true).setAsm Assembler.empty).result .ok := by
  simp [State.start, h]

theorem State.stop_run (s : State) : s.stop.run = false := rfl

theorem step_stop {s : State} {es : List Event} (hin : s.inputs = .stop :: es) :
    step s = .next (s.setInputs es).stop :=
  step_cons hin

theorem step_start_of_stopped {s : State} {es : List Event} (hin : s.inputs = .start :: es)
    (h : s.run = false) :
    step s = .next ((((s.setInputs es).setRun true).setAsm Assembler.empty).result .ok) :=
  (step_cons hin).trans (congrArg _ (State.start_of_stopped (s := s.setInputs es) h))

/-- Settles O45: `Stop` leaves the loop stopped whether or not it ran, so `Start` is never refused. -/
theorem stopThenStartClearsOnlyTheAssembler :
    Obligations.StopThenStartClearsOnlyTheAssembler := by
  intro s es hin
  have hstopped : (s.setInputs (.start :: es)).stop.run = false := State.stop_run _
  rw [steps_succ (step_stop hin), steps_succ (step_start_of_stopped rfl hstopped)]
  simp [steps, State.stop, State.result, State.emit, State.setInputs, State.setRun, State.setAsm,
    Assembler.empty, emits]

end Sys2Proof.Machine
end

section
/-! PROOFS. The statements of 30_encoding.md about the two directions of the codec: each payload that a
row reads is the one that row writes, and what a frame's bytes must be for a row to read it. -/

namespace Sys2Proof.Machine

open Sys2Proof.Claims

/-! ### The payloads of requests (rules R103, R104 and R246) -/

theorem decodeReadOperands_of_length_ne {p : List Byte} (h : p.length ≠ 4) :
    decodeReadOperands p = .malformed p := by
  unfold decodeReadOperands
  split
  · exact absurd rfl h
  · rfl

theorem decodeReadOperands_encode {ops : ReadOperands} (h : ops.wellFormed = true) :
    decodeReadOperands (encodeReadOperands ops) = ops := by
  cases ops with
  | fields start count => simp [encodeReadOperands, decodeReadOperands]
  | malformed p =>
    simp only [ReadOperands.wellFormed, readShape, Bool.and_eq_true, Bool.not_eq_true',
      decide_eq_false_iff_not] at h
    exact decodeReadOperands_of_length_ne h.2

theorem decodeReadOperands_wellFormed {p : List Byte} (h : p.length ≤ Config.maxPayload) :
    (decodeReadOperands p).wellFormed = true := by
  by_cases hlen : p.length = 4
  · obtain ⟨sh, sl, ch, cl, rfl⟩ := List.length_eq_four.1 hlen
    rfl
  · simp [decodeReadOperands_of_length_ne hlen, ReadOperands.wellFormed, payloadFits, readShape, h,
      hlen]

/-- On a payload of at least five bytes, `WellFormedWrite` is what the decoder tests. -/
theorem writeShape_cons (startHi startLo countHi countLo byteCount : Byte) (vs : List Byte) :
    writeShape (startHi :: startLo :: countHi :: countLo :: byteCount :: vs) =
      decide (byteCount.toNat = 2 * (be16 countHi countLo).toNat ∧ vs.length = byteCount.toNat) := by
  simp only [writeShape, be16_toNat, List.length_cons, List.getD_cons_succ, List.getD_cons_zero]
  rw [decide_eq_decide]
  omega

theorem decodeWriteOperands_of_not_writeShape {p : List Byte} (h : writeShape p = false) :
    decodeWriteOperands p = .malformed p := by
  unfold decodeWriteOperands
  split
  · rw [writeShape_cons, decide_eq_false_iff_not] at h
    rw [if_neg h]
  · rfl

theorem decodeWriteOperands_encode {ops : WriteOperands} (h : ops.wellFormed = true) :
    decodeWriteOperands (encodeWriteOperands ops) = ops := by
  cases ops with
  | fields start values =>
    have hlen : values.length ≤ 123 := by simpa [WriteOperands.wellFormed] using h
    simp only [encodeWriteOperands, decodeWriteOperands, be16_hi_lo, bytePairs_wordBytes,
      wordBytes_length, BitVec.toNat_ofNat]
    rw [if_pos (by omega)]
  | malformed p =>
    simp only [WriteOperands.wellFormed, Bool.and_eq_true, Bool.not_eq_true'] at h
    exact decodeWriteOperands_of_not_writeShape h.2

theorem decodeWriteOperands_wellFormed {p : List Byte} (h : p.length ≤ Config.maxPayload) :
    (decodeWriteOperands p).wellFormed = true := by
  cases hshape : writeShape p with
  | false =>
    simp [decodeWriteOperands_of_not_writeShape hshape, WriteOperands.wellFormed, payloadFits, h,
      hshape]
  | true =>
    -- the byte count is even and at most 247, so it counts at most 123 words
    match p with
    | sh :: sl :: ch :: cl :: bc :: vs =>
      rw [writeShape_cons, decide_eq_true_eq] at hshape
      have hcount : (bytePairs vs).length ≤ 123 := by
        simp only [List.length_cons, Config.maxPayload] at h
        rw [bytePairs_length]
        omega
      simpa [decodeWriteOperands, hshape, WriteOperands.wellFormed] using hcount

/-! ### The request rows (rules R111 and R117) -/

theorem decodeRequest_wellFormed (a fc : Byte) {p : List Byte} (h : p.length ≤ Config.maxPayload) :
    (decodeRequest a fc p).wellFormed = true := by
  unfold decodeRequest
  split_ifs with h3 h4 h10 h6
  · exact decodeReadOperands_wellFormed h
  · exact decodeReadOperands_wellFormed h
  · exact decodeWriteOperands_wellFormed h
  · exact decide_eq_true h
  · simp only [Instr.wellFormed, payloadFits, Bool.and_eq_true, decide_eq_true_eq]
    exact ⟨h, h3, h4, h10, h6⟩

@[simp] theorem encode_length (i : Instr) : (encode i).length = i.pdu.length + 3 := by
  simp [encode]

/-- The shape of a well-formed instruction's frame, whatever its constructor (rules R100, R101). -/
theorem frameShape : ∀ i : Instr, Laws.FrameShape.Statement i
  | .rhr a ops => Laws.FrameShape.rhr a ops
  | .rir a ops => Laws.FrameShape.rir a ops
  | .wmr a ops => Laws.FrameShape.wmr a ops
  | .wsr a p => Laws.FrameShape.wsr a p
  | .illegal a fc p => Laws.FrameShape.illegal a fc p
  | .rhrRsp a values => Laws.FrameShape.rhrRsp a values
  | .rirRsp a values => Laws.FrameShape.rirRsp a values
  | .wmrRsp a start count => Laws.FrameShape.wmrRsp a start count
  | .exc a fc code => Laws.FrameShape.exc a fc code

/-- The frame of an instruction, with the function byte and the payload of its PDU named. -/
theorem encode_of_pdu {i : Instr} {fc : Byte} {p : List Byte} (h : i.pdu = fc :: p) :
    encode i = crcAppend (i.addr :: fc :: p) := by
  rw [encode, h]

/-- The PDU of a well-formed instruction is a function byte and a payload that fits (rule R102). -/
theorem exists_pdu_of_wellFormed {i : Instr} (h : i.wellFormed = true) :
    ∃ fc p, i.pdu = fc :: p ∧ p.length ≤ 252 := by
  obtain ⟨-, -, hmin, hmax⟩ := frameShape i h
  rw [encode_length] at hmin hmax
  match hpdu : i.pdu, hmin with
  | fc :: p, _ =>
    simp only [hpdu, List.length_cons, Config.maxFrame] at hmax
    exact ⟨fc, p, rfl, by omega⟩

theorem decodeRequest_of_pdu {i : Instr} {fc : Byte} {p : List Byte} (hw : i.wellFormed = true)
    (hreq : i.isRequest = true) (hpdu : i.pdu = fc :: p) : decodeRequest i.addr fc p = i := by
  cases i with
  | rhr a ops =>
    cases hpdu
    exact congrArg (Instr.rhr a) (decodeReadOperands_encode hw)
  | rir a ops =>
    cases hpdu
    exact congrArg (Instr.rir a) (decodeReadOperands_encode hw)
  | wmr a ops =>
    cases hpdu
    exact congrArg (Instr.wmr a) (decodeWriteOperands_encode hw)
  | wsr a p => cases hpdu; rfl
  | illegal a fc p =>
    cases hpdu
    simp only [Instr.wellFormed, Bool.and_eq_true, decide_eq_true_eq] at hw
    obtain ⟨-, h3, h4, h10, h6⟩ := hw
    exact decodeRequest_other a p h3 h4 h10 h6
  | rhrRsp | rirRsp | wmrRsp | exc => cases hreq

/-! ### The payloads of responses (rules R105 to R107) -/

theorem decodeReadResponse_encode {values : List Word} (h : valuesFit values = true) :
    decodeReadResponse (encodeReadResponse values) = some values := by
  obtain ⟨hmin, hmax⟩ : 1 ≤ values.length ∧ values.length ≤ 125 := of_decide_eq_true h
  simp only [encodeReadResponse, decodeReadResponse, wordBytes_length, BitVec.toNat_ofNat,
    bytePairs_wordBytes]
  rw [if_pos (by simp only [Config.maxReadCount]; omega)]

theorem decodeReadResponse_cases {p : List Byte} {values : List Word}
    (h : decodeReadResponse p = some values) :
    valuesFit values = true ∧ encodeReadResponse values = p := by
  unfold decodeReadResponse at h
  split at h
  case h_2 => cases h
  case h_1 byteCount vs =>
    split at h
    case isFalse => cases h
    case isTrue hshape =>
      cases h
      obtain ⟨hcount, heven, hne, hmax⟩ := hshape
      have hlen : 2 * (bytePairs vs).length = vs.length := by
        rw [bytePairs_length]
        omega
      constructor
      · simp only [valuesFit, decide_eq_true_eq]
        omega
      · rw [encodeReadResponse, hlen, hcount, BitVec.ofNat_toNat, BitVec.setWidth_eq,
          wordBytes_bytePairs vs heven]

theorem decodeWriteResponse_encode {start count : Word} (hmin : 1 ≤ count.toNat)
    (hmax : count.toNat ≤ Config.maxWriteCount) :
    decodeWriteResponse [hi start, lo start, hi count, lo count] = some (start, count) := by
  simp only [decodeWriteResponse, be16_hi_lo]
  rw [if_pos ⟨by omega, hmax⟩]

theorem decodeWriteResponse_cases {p : List Byte} {start count : Word}
    (h : decodeWriteResponse p = some (start, count)) :
    (1 ≤ count.toNat ∧ count.toNat ≤ Config.maxWriteCount) ∧
      p = [hi start, lo start, hi count, lo count] := by
  unfold decodeWriteResponse at h
  split at h
  case h_2 => cases h
  case h_1 startHi startLo countHi countLo =>
    split at h
    case isFalse => cases h
    case isTrue hcount =>
      cases h
      obtain ⟨hne, hmax⟩ := hcount
      exact ⟨⟨by omega, hmax⟩, by simp⟩

theorem excOfByte_excByte (code : ExcCode) : excOfByte (excByte code) = some code := by
  cases code <;> rfl

theorem eq_excByte_of_excOfByte {b : Byte} {code : ExcCode} (h : excOfByte b = some code) :
    b = excByte code := by
  unfold excOfByte at h
  split_ifs at h with h1 h2 h3 h4 <;> cases h
  · exact h1
  · exact h2
  · exact h3
  · exact h4

theorem decodeExceptionPayload_encode (code : ExcCode) :
    decodeExceptionPayload [excByte code] = .ok code := by
  rw [decodeExceptionPayload, excOfByte_excByte]

theorem decodeExceptionPayload_cases {p : List Byte} {code : ExcCode}
    (h : decodeExceptionPayload p = .ok code) : p = [excByte code] := by
  unfold decodeExceptionPayload at h
  split at h
  case h_2 => cases h
  case h_1 c =>
    split at h
    case h_1 hc =>
      cases h
      rw [eq_excByte_of_excOfByte hc]
    case h_2 => cases h

/-! ### The response rows (rule R117) -/

/-- A framed PDU whose payload fits is read with the response rows by its function byte. -/
theorem decodeResponse_crcAppend (a fc : Byte) {p : List Byte} (hp : p.length ≤ 252) :
    decodeResponse (crcAppend (a :: fc :: p)) = decodeResponseBody a fc p := by
  have herr : frameError (crcAppend (a :: fc :: p)) = none :=
    frameError_crcAppend (by simp) (by simp only [List.length_cons]; omega)
  simp [decodeResponse, herr]

theorem decodeResponseBody_of_pdu {i : Instr} {fc : Byte} {p : List Byte}
    (hw : i.wellFormed = true) (hrsp : i.isRequest = false) (hpdu : i.pdu = fc :: p) :
    decodeResponseBody i.addr fc p = .ok i := by
  cases i with
  | rhr | rir | wmr | wsr | illegal => cases hrsp
  | rhrRsp a values =>
    cases hpdu
    simp [decodeResponseBody, fcReadHolding, decodeReadResponse_encode hw, Instr.addr]
  | rirRsp a values =>
    cases hpdu
    simp [decodeResponseBody, fcReadHolding, fcReadInput, decodeReadResponse_encode hw, Instr.addr]
  | wmrRsp a start count =>
    cases hpdu
    obtain ⟨hmin, hmax⟩ := of_decide_eq_true hw
    simp [decodeResponseBody, fcReadHolding, fcReadInput, fcWriteMultiple,
      decodeWriteResponse_encode hmin hmax, Instr.addr]
  | exc a fc code =>
    cases hpdu
    have hbit : fc.getLsbD 7 = true := hw
    rw [decodeResponseBody, if_pos hbit, decodeExceptionPayload_encode, Instr.addr]

/-- A response row reads only well-formed responses, and no byte of the PDU is lost. -/
theorem decodeResponseBody_cases {a fc : Byte} {p : List Byte} {i : Instr}
    (h : decodeResponseBody a fc p = .ok i) :
    i.wellFormed = true ∧ i.isRequest = false ∧ i.addr = a ∧ i.pdu = fc :: p := by
  unfold decodeResponseBody at h
  split_ifs at h with h7 h3 h4 h10
  · split at h
    case h_2 => cases h
    case h_1 code hcode =>
      cases h
      exact ⟨h7, rfl, rfl, by rw [decodeExceptionPayload_cases hcode, Instr.pdu]⟩
  · split at h
    case h_2 => cases h
    case h_1 values hvalues =>
      cases h
      obtain ⟨hfit, henc⟩ := decodeReadResponse_cases hvalues
      exact ⟨hfit, rfl, rfl, by rw [Instr.pdu, henc, h3]⟩
  · split at h
    case h_2 => cases h
    case h_1 values hvalues =>
      cases h
      obtain ⟨hfit, henc⟩ := decodeReadResponse_cases hvalues
      exact ⟨hfit, rfl, rfl, by rw [Instr.pdu, henc, h4]⟩
  · split at h
    case h_2 => cases h
    case h_1 start count hfields =>
      cases h
      obtain ⟨hcount, rfl⟩ := decodeWriteResponse_cases hfields
      exact ⟨decide_eq_true hcount, rfl, rfl, by rw [Instr.pdu, h10]⟩

/-! ### The round trips -/

/-- Settles O2: the frame is that of the function byte and payload of the instruction's PDU, from
which its own row reads it. -/
theorem decodeOfEncodeIsTheInstruction : Obligations.DecodeOfEncodeIsTheInstruction := by
  intro i hw
  obtain ⟨fc, p, hpdu, hp⟩ := exists_pdu_of_wellFormed hw
  rw [encode_of_pdu hpdu]
  refine ⟨fun hreq => ?_, fun hrsp => ?_⟩
  · rw [decode_crcAppend _ _ hp, decodeRequest_of_pdu hw hreq hpdu]
  · rw [decodeResponse_crcAppend _ _ hp, decodeResponseBody_of_pdu hw hrsp hpdu]

/-- What passes the checks of rule R101 is a framed PDU whose payload fits. -/
theorem exists_frame_of_frameError_none {f : List Byte} (h : frameError f = none) :
    ∃ a fc p, f = crcAppend (a :: fc :: p) ∧ p.length ≤ 252 := by
  obtain ⟨hmin, hmax, hv⟩ := (frameError_eq_none_iff f).1 h
  obtain ⟨a, fc, p, rfl⟩ := exists_frame_of_verify hv hmin
  simp only [crcAppend_length, List.length_cons, Config.maxFrame] at hmax
  exact ⟨a, fc, p, rfl, by omega⟩

theorem decode_cases {f : List Byte} {i : Instr} (h : decode f = .ok i) :
    i.wellFormed = true ∧ i.isRequest = true ∧ encode i = f := by
  obtain ⟨hframe, -⟩ := decode_eq_ok_iff.1 h
  obtain ⟨a, fc, p, rfl, hp⟩ := exists_frame_of_frameError_none hframe
  rw [decode_crcAppend a fc hp] at h
  cases h
  obtain ⟨hreq, haddr, hpdu⟩ := decodeRequest_fields a fc p
  exact ⟨decodeRequest_wellFormed a fc hp, hreq, by rw [encode_of_pdu hpdu, haddr]⟩

theorem decodeResponse_cases {f : List Byte} {i : Instr} (h : decodeResponse f = .ok i) :
    i.wellFormed = true ∧ i.isRequest = false ∧ encode i = f := by
  have hframe : frameError f = none := by
    unfold decodeResponse at h
    cases he : frameError f with
    | none => rfl
    | some e => simp [he] at h
  obtain ⟨a, fc, p, rfl, hp⟩ := exists_frame_of_frameError_none hframe
  rw [decodeResponse_crcAppend a fc hp] at h
  obtain ⟨hw, hrsp, haddr, hpdu⟩ := decodeResponseBody_cases h
  exact ⟨hw, hrsp, by rw [encode_of_pdu hpdu, haddr]⟩

/-- Settles O3: what either set of rows reads from a frame carries the frame's own address and PDU. -/
theorem encodeOfDecodeIsTheFrame : Obligations.EncodeOfDecodeIsTheFrame :=
  fun _ _ => ⟨decode_cases, decodeResponse_cases⟩

end Sys2Proof.Machine
end

section
/-! PROOFS. The statements of 30_encoding.md about frames written out and about the bounds of a frame: a
response of at most 125 words fits, and every transmitted frame is such a response. -/

namespace Sys2Proof.Machine

open Sys2Proof.Claims

/-! ### Frames written out (rules R103 to R107) -/

/-- Settles O1: the frames are closed data, CRC bytes included, so the decoders compute on them. -/
theorem wordsWrittenOutDecode : Obligations.WordsWrittenOutDecode := by
  unfold Obligations.WordsWrittenOutDecode
  decide +kernel

/-! ### The frames a step transmits (rules R66, R109 and R248) -/

/-- Every frame transmitted between `s` and `t` has a PDU of at most 252 bytes. -/
def TxBounded (s t : State) : Prop :=
  ∀ f, Output.tx f ∈ t.outputs → Output.tx f ∈ s.outputs ∨ f.length ≤ 255

theorem TxBounded.of_outputs {s t : State} {os : List Output} (h : t.outputs = s.outputs ++ os)
    (hos : ∀ f, Output.tx f ∈ os → f.length ≤ 255) : TxBounded s t := by
  intro f hf
  rw [h, List.mem_append] at hf
  exact hf.imp_right (hos f)

theorem TxBounded.of_outputs_eq {s t : State} (h : t.outputs = s.outputs) : TxBounded s t :=
  fun _ hf => .inl (h ▸ hf)

theorem EmitsAtMostOne.txBounded {s t : State} (h : EmitsAtMostOne s t) : TxBounded s t := by
  obtain hnone | ⟨r, hdrop⟩ | ⟨k, f, hhook⟩ | ⟨r, hres⟩ := h
  · exact .of_outputs_eq hnone
  · exact .of_outputs hdrop (by simp)
  · exact .of_outputs hhook (by simp)
  · exact .of_outputs hres (by simp)

theorem State.respond_txBounded (s : State) (req : Instr) {rsp : Instr}
    (h : rsp.pdu.length ≤ 252) : TxBounded s (s.respond req rsp) := by
  refine .of_outputs (s.respond_outputs req rsp) fun f hf => ?_
  obtain rfl : f = encode rsp := by simpa using hf
  rw [encode_length]
  omega

theorem State.takeException_txBounded (s : State) (req : Instr) (code : ExcCode) :
    TxBounded s (s.takeException req code) :=
  s.respond_txBounded req (by simp [buildException, Instr.pdu])

theorem State.executeRead_txBounded (s : State) (req : Instr) (sp : Space) (ops : ReadOperands)
    {answer : List Word → Instr} (h : ∀ vs, (answer vs).pdu.length = 2 + 2 * vs.length) :
    TxBounded s (s.executeRead req sp ops answer) := by
  obtain ⟨code, hexc⟩ | ⟨start, count, vs, -, -, hmax, hread, -, hok⟩ :=
    s.executeRead_cases req sp ops answer
  · rw [hexc]
    exact s.takeException_txBounded req code
  · obtain ⟨-, -, -, -, -, -, hlen⟩ := Memory.read_cases hread
    simp only [Config.maxReadCount] at hmax
    rw [hok]
    exact s.respond_txBounded req (by rw [h, hlen]; omega)

theorem State.executeWrite_txBounded (s : State) (req : Instr) (ops : WriteOperands) :
    TxBounded s (s.executeWrite req ops) := by
  obtain ⟨code, hexc⟩ | ⟨start, values, m, -, -, -, -, hok⟩ := s.executeWrite_cases req ops
  · rw [hexc]
    exact s.takeException_txBounded req code
  · rw [hok]
    exact (s.setSlaves m).respond_txBounded req (by simp [Instr.pdu])

theorem State.route_txBounded {s onBroadcast onSlave : State} {req : Instr}
    (hb : onBroadcast.outputs = s.outputs) (hs : TxBounded s onSlave) :
    TxBounded s (s.route req onBroadcast onSlave) := by
  obtain ⟨-, h⟩ | ⟨-, -, h⟩ | ⟨-, -, h⟩ := s.route_cases req onBroadcast onSlave <;> rw [h]
  · exact .of_outputs_eq hb
  · exact hs
  · obtain ⟨-, hm⟩ | ⟨-, hm⟩ := s.missingSlave_cases req <;> rw [hm]
    · exact .of_outputs_eq rfl
    · exact .of_outputs (s.emit_outputs _) (by simp)

theorem encodeReadResponse_length (values : List Word) :
    (encodeReadResponse values).length = 1 + 2 * values.length := by
  rw [encodeReadResponse, List.length_cons, wordBytes_length, Nat.add_comm]

theorem exec_txBounded {s t : State} {i : Instr} (hreq : i.isRequest = true)
    (h : exec i s = .next t) : TxBounded s t := by
  have hpdu : ∀ (fc : Byte) (vs : List Word),
      (fc :: encodeReadResponse vs).length = 2 + 2 * vs.length := fun fc vs => by
    rw [List.length_cons, encodeReadResponse_length]
    omega
  cases i with
  | rhr a ops =>
    cases h
    exact State.route_txBounded rfl (s.executeRead_txBounded _ _ ops (hpdu _))
  | rir a ops =>
    cases h
    exact State.route_txBounded rfl (s.executeRead_txBounded _ _ ops (hpdu _))
  | wmr a ops =>
    cases h
    exact State.route_txBounded (s.executeBroadcastWrite_outputs ops)
      (s.executeWrite_txBounded _ ops)
  | wsr a p => cases h; exact State.route_txBounded rfl (s.takeException_txBounded _ _)
  | illegal a fc p => cases h; exact State.route_txBounded rfl (s.takeException_txBounded _ _)
  | rhrRsp | rirRsp | wmrRsp | exc => cases hreq

theorem tickEvent_txBounded {s t : State} (h : tickEvent s = .next t) : TxBounded s t := by
  obtain ⟨-, rfl⟩ | ⟨-, -, rfl⟩ | ⟨-, -, -, rfl⟩ | ⟨-, -, -, hexec⟩ := tickEvent_cases h
  · exact .of_outputs_eq s.countTick_outputs
  · exact EmitsAtMostOne.txBounded (.inr (.inl ⟨_, rfl⟩))
  · exact EmitsAtMostOne.txBounded (.inr (.inr (.inl ⟨_, _, rfl⟩)))
  · exact exec_txBounded (s := s.setAsm Assembler.empty) (decodeVerified_isRequest _) hexec

theorem step_txBounded {s t : State} (h : step s = .next t) : TxBounded s t := by
  cases hin : s.inputs with
  | nil =>
    rw [step_nil hin] at h
    cases h
    exact .of_outputs_eq rfl
  | cons e es =>
    rw [step_cons hin] at h
    by_cases he : e = .tick
    · subst he
      exact tickEvent_txBounded (s := s.setInputs es) h
    · exact (handle_emits (s := s.setInputs es) he h).txBounded

/-- Settles O4: the decoder's checks are rule R101, what it reads has the frame read for its frame,
and what a step transmits is a response that fits. -/
theorem framesAreBoundedAndChecked : Obligations.FramesAreBoundedAndChecked := by
  refine ⟨fun f => ?_, fun f i hi => ?_, fun s t f hstep hf hnew => ?_⟩
  · rw [← frameError_eq_none_iff]
    exact ⟨fun ⟨i, hi⟩ => (decode_eq_ok_iff.1 hi).1, fun h => ⟨_, decode_eq_ok_iff.2 ⟨h, rfl⟩⟩⟩
  · obtain ⟨hframe, -⟩ := decode_eq_ok_iff.1 hi
    obtain ⟨hmin, hmax, -⟩ := (frameError_eq_none_iff f).1 hframe
    obtain ⟨-, -, rfl⟩ := decode_cases hi
    simp only [encode_length, Config.minFrame, Config.maxFrame] at hmin hmax ⊢
    omega
  · have hlen := (step_txBounded hstep f hf).resolve_left hnew
    omega

end Sys2Proof.Machine
end

section
/-! PROOFS. The statements of 40_crc.md about the CRC of a framed sequence and about corruption: each
step of the generator is injective, so a changed byte changes the CRC. -/

namespace Sys2Proof.Machine

/-! ### The shifts (rule R141) -/

theorem crcShift_of_even {c : Word} (h : c.getLsbD 0 = false) : crcShift c = c >>> 1 := by
  rw [crcShift, h, if_neg Bool.false_ne_true]

/-- While only zeros are shifted out, the polynomial never enters. -/
theorem crcShift_iterate_of_zeros (n : Nat) {c : Word} (h : ∀ i < n, c.getLsbD i = false) :
    crcShift^[n] c = c >>> n := by
  induction n generalizing c with
  | zero => simp
  | succ n ih =>
    have hrest : ∀ i < n, (c >>> 1).getLsbD i = false := fun i hi => by
      rw [BitVec.getLsbD_ushiftRight]
      exact h (1 + i) (by omega)
    rw [Function.iterate_succ_apply, crcShift_of_even (h 0 n.succ_pos), ih hrest,
      ← BitVec.shiftRight_add, Nat.add_comm]

/-- Bit 15 of a shifted word is the bit shifted out: the polynomial has it and the shift clears it. -/
theorem getLsbD_crcShift_last (c : Word) : (crcShift c).getLsbD 15 = c.getLsbD 0 := by
  have hshift : (c >>> 1).getLsbD 15 = false := by simp
  have hpoly : Config.crcPoly.getLsbD 15 = true := by decide
  cases h : c.getLsbD 0 with
  | false => rw [crcShift_of_even h, hshift]
  | true => rw [crcShift, if_pos h, BitVec.getLsbD_xor, hshift, hpoly, Bool.false_xor]

theorem crcShift_injective : Function.Injective crcShift := by
  intro c d h
  have hlow : c.getLsbD 0 = d.getLsbD 0 := by
    rw [← getLsbD_crcShift_last c, h, getLsbD_crcShift_last]
  have hhigh : c >>> 1 = d >>> 1 := by
    rw [crcShift, crcShift, hlow] at h
    split at h
    · exact BitVec.xor_left_inj _ |>.1 h
    · exact h
  apply BitVec.eq_of_getLsbD_eq
  intro i hi
  cases i with
  | zero => exact hlow
  | succ i =>
    have hbit := congrArg (BitVec.getLsbD · i) hhigh
    simpa [BitVec.getLsbD_ushiftRight, Nat.add_comm] using hbit

theorem crcUpdate_injective (b : Byte) : Function.Injective (crcUpdate · b) :=
  (crcShift_injective.iterate 8).comp fun _ _ h => BitVec.xor_left_inj _ |>.1 h

theorem crcUpdate_injective_byte (c : Word) : Function.Injective (crcUpdate c) := by
  intro b b' h
  have hwide : b.setWidth 16 = b'.setWidth 16 :=
    BitVec.xor_right_inj _ |>.1 (crcShift_injective.iterate 8 h)
  simpa using congrArg (BitVec.setWidth 8) hwide

/-! ### A sequence followed by its CRC (rules R142 and R143, vector K12) -/

/-- The low byte of the CRC empties the low half, and the shifts bring the high half down. -/
theorem crcUpdate_lo (c : Word) : crcUpdate c (lo c) = (hi c).setWidth 16 := by
  have hzeros : ∀ i < 8, (c ^^^ (lo c).setWidth 16).getLsbD i = false := fun i hi => by
    simp [lo, hi, show i < 16 by omega]
  rw [crcUpdate, crcShift_iterate_of_zeros 8 hzeros]
  apply BitVec.eq_of_getLsbD_eq
  intro i hi
  by_cases hlow : i < 8
  · simp [lo, Machine.hi, hlow, Nat.add_comm, show i < 16 by omega]
  · simp [lo, Machine.hi, hlow, Nat.add_comm, c.getLsbD_of_ge (i + 8) (by omega)]

theorem crcUpdate_self (b : Byte) : crcUpdate (b.setWidth 16) b = 0#16 := by
  rw [crcUpdate, BitVec.xor_self, crcShift_iterate_of_zeros 8 (by simp)]
  simp

/-- Settles O9: the first CRC byte leaves the second in the register, and the second clears it. -/
theorem crcOfFramedSequenceIsZero : Obligations.CrcOfFramedSequenceIsZero := by
  intro bs
  have hfold : crc16 (crcAppend bs) =
      crcUpdate (crcUpdate (crc16 bs) (lo (crc16 bs))) (hi (crc16 bs)) := by
    simp [crc16, crcAppend]
  rw [hfold, crcUpdate_lo, crcUpdate_self]

/-! ### One changed byte -/

theorem foldl_crcUpdate_injective (bs : List Byte) : Function.Injective (bs.foldl crcUpdate) := by
  induction bs with
  | nil => exact Function.injective_id
  | cons b bs ih => exact ih.comp (crcUpdate_injective b)

theorem crc16_append_cons (l : List Byte) (b : Byte) (r : List Byte) :
    crc16 (l ++ b :: r) = r.foldl crcUpdate (crcUpdate (crc16 l) b) := by
  rw [crc16, List.foldl_append, List.foldl_cons, crc16]

/-- A change of one byte always changes the CRC: the registers differ after it and so to the end. -/
theorem crc16_set_ne {f : List Byte} {k : Nat} {b : Byte} (hk : k < f.length)
    (hb : f[k]? ≠ some b) : crc16 (f.set k b) ≠ crc16 f := by
  have hbyte : f[k] ≠ b := by simpa [List.getElem?_eq_getElem hk] using hb
  have hf : f = f.take k ++ f[k] :: f.drop (k + 1) := by simp
  have hset : f.set k b = f.take k ++ b :: f.drop (k + 1) := by
    rw [List.set_eq_take_append_cons_drop, if_pos hk]
  intro h
  have hfold : (f.drop (k + 1)).foldl crcUpdate (crcUpdate (crc16 (f.take k)) b) =
      (f.drop (k + 1)).foldl crcUpdate (crcUpdate (crc16 (f.take k)) f[k]) := by
    rw [← crc16_append_cons, ← crc16_append_cons, ← hset, ← hf, h]
  have hupdate := foldl_crcUpdate_injective _ hfold
  exact hbyte (crcUpdate_injective_byte _ hupdate).symm

/-- Settles O7: what verifies has the CRC zero, which sequences that differ in one byte cannot share. -/
theorem oneByteCorruptionIsDetected : Obligations.OneByteCorruptionIsDetected := by
  intro f k b hv hk hb
  have hzero : ∀ g, verify g = true → crc16 g = 0x0000#16 := by
    intro g hg
    obtain ⟨bs, rfl⟩ := exists_crcAppend_of_verify hg
    exact crcOfFramedSequenceIsZero bs
  by_contra hset
  rw [Bool.not_eq_false] at hset
  exact crc16_set_ne hk hb ((hzero _ hset).trans (hzero f hv).symm)

end Sys2Proof.Machine
end

section
/-! PROOFS. The statements of 42_dispatcher.md about unknown slaves, broadcasts, exception entry and the
response rows, and what any instruction can change: the banks alone, as a write of holding registers. -/

namespace Sys2Proof.Machine

open Sys2Proof.Claims

/-! ### Missing slaves and rejected functions (rules R206, R244 and R307) -/

theorem Memory.bank_isSome_bounds {lo a : Nat} {m : Memory} (h : Memory.wfFrom lo m = true)
    (ha : (m.bank a).isSome = true) : lo ≤ a ∧ a ≤ Config.addrMax := by
  induction m generalizing lo with
  | nil => cases ha
  | cons e m ih =>
    obtain ⟨⟨hlo, hmax⟩, -, hm⟩ := Memory.wfFrom_cons.1 h
    by_cases he : e.1 = a
    · exact ⟨he ▸ hlo, he ▸ hmax⟩
    · rw [Memory.bank, if_neg he] at ha
      obtain ⟨hlo', hmax'⟩ := ih hm ha
      exact ⟨by omega, hmax'⟩

/-- Settles O24: the frame's request is routed to a missing slave, and its frame is the one received. -/
theorem unknownSlavesOnlyRaiseTheHook : Obligations.UnknownSlavesOnlyRaiseTheHook := by
  refine ⟨fun s es i hc hi ha hr hmode => ?_, fun s a hwf hr => Memory.bank_isSome_bounds hwf hr⟩
  obtain ⟨hframe, rfl⟩ := decode_eq_ok_iff.1 hi
  obtain ⟨hlen, -, hv⟩ := (frameError_eq_none_iff _).1 hframe
  have hexec : exec (decodeVerified s.asm.buf) (ready s es) =
      .next ((ready s es).missingSlave (decodeVerified s.asm.buf)) :=
    exec_of_missing (decodeVerified_isRequest _) ha hr
  have hhook : (ready s es).missingSlave (decodeVerified s.asm.buf) =
      emits (ready s es) [.errorHook .unknownSlave s.asm.buf] := by
    rw [State.missingSlave, if_pos (by simpa [ready] using hmode), encode_decodeVerified hv hlen]
    rfl
  rw [step_of_completes hc hlen, dispatch_of_decode _ hi, hexec, hhook]

/-- Settles O33: no check looks at the payload. -/
theorem writeSingleRegisterIsRejected : Obligations.WriteSingleRegisterIsRejected :=
  fun _ _ p ha hr => exec_wsr_registered p ha hr

/-- Settles O34: the exception is answered as any response is, with the byte of its code. -/
theorem exceptionEntryOnlyAnswers : Obligations.ExceptionEntryOnlyAnswers := by
  rintro s a fc p req rfl hpdu
  have hanswer := fun code => State.takeException_eq_answered s code hpdu
  exact ⟨hanswer .illegalFunction, hanswer .illegalDataAddress, hanswer .illegalDataValue,
    hanswer .slaveDeviceFailure⟩

/-! ### The response rows (rule R117) -/

theorem State.transmit_eq_emits (s : State) (rsp : Instr) :
    s.transmit rsp = emits s [.tx (crcAppend (rsp.addr :: rsp.pdu))] := rfl

/-- Settles O35: each response row transmits its own frame, whose PDU is written out. -/
theorem responsesAreTransmittedWhole : Obligations.ResponsesAreTransmittedWhole := by
  intro s a
  refine ⟨fun values => ?_, fun values => ?_, fun start count => ?_, fun fc => ?_⟩
  · exact congrArg Host.Outcome.next (s.transmit_eq_emits (.rhrRsp a values))
  · exact congrArg Host.Outcome.next (s.transmit_eq_emits (.rirRsp a values))
  · exact congrArg Host.Outcome.next (s.transmit_eq_emits (.wmrRsp a start count))
  · have hexc : ∀ code, exec (.exc a fc code) s = .next (emits s
        [.tx (crcAppend [a, fc, excByte code])]) :=
      fun code => congrArg Host.Outcome.next (s.transmit_eq_emits (.exc a fc code))
    exact ⟨hexc .illegalFunction, hexc .illegalDataAddress, hexc .illegalDataValue,
      hexc .slaveDeviceFailure⟩

/-! ### Totality (rule R316) -/

theorem exec_isNext (i : Instr) (s : State) : ∃ t, exec i s = .next t := by
  cases i <;> exact ⟨_, rfl⟩

theorem dispatch_isNext (f : List Byte) (s : State) : ∃ t, dispatch f s = .next t := by
  unfold dispatch
  split_ifs
  · exact exec_isNext _ s
  · exact ⟨_, rfl⟩

theorem tickEvent_isNext (s : State) : ∃ t, tickEvent s = .next t := by
  unfold tickEvent
  split_ifs
  · exact ⟨_, rfl⟩
  · exact dispatch_isNext _ _
  · exact ⟨_, rfl⟩

theorem handle_isNext (e : Event) (s : State) : ∃ t, handle e s = .next t := by
  cases e with
  | tick => exact tickEvent_isNext s
  | reset | rxByte | start | stop | addSlave | removeSlave | addBlock | setErrOnMissingSlave
  | hostRead | hostWrite => exact ⟨_, rfl⟩

theorem step_isNext (s : State) : ∃ t, step s = .next t := by
  cases hin : s.inputs with
  | nil => exact ⟨s, step_nil hin⟩
  | cons e es =>
    rw [step_cons hin]
    exact handle_isNext e _

/-- Settles O27: every event and every instruction has a branch that answers a next state. -/
theorem nothingFaultsOrIsRefused : Obligations.NothingFaultsOrIsRefused :=
  ⟨step_isNext, exec_isNext⟩

/-- Settles O21: the tick placed first completes the table word's frame, whatever `T_IF` is. -/
theorem fetchedTableWordRunsNext : Obligations.FetchedTableWordRunsNext := by
  intro s nbits w i hi
  have hdecode : decode (tableFrame nbits w) = .ok i := by
    unfold decodeTableWord at hi
    split at hi
    case h_1 j hj => rw [hj, Option.some.inj hi]
    case h_2 => cases hi
  obtain ⟨hframe, -⟩ := decode_eq_ok_iff.1 hdecode
  obtain ⟨hlen, -, -⟩ := (frameError_eq_none_iff _).1 hframe
  have hin : (s.withFetchWord nbits w).inputs = .tick :: s.inputs := rfl
  have hends : ((s.withFetchWord nbits w).setInputs s.inputs).frameEnds = true :=
    (State.frameEnds_iff _).2 ⟨rfl, rfl, Nat.le_add_of_sub_le (Nat.le_refl _)⟩
  calc step (s.withFetchWord nbits w)
      = tickEvent ((s.withFetchWord nbits w).setInputs s.inputs) := step_cons hin
    _ = dispatch (tableFrame nbits w) (ready { s with run := true } s.inputs) :=
        tickEvent_of_frameEnds hends hlen
    _ = exec i (ready { s with run := true } s.inputs) := dispatch_of_decode _ hdecode

/-! ### A broadcast write (rule R204) -/

theorem Bank.broadcastWrite_of_contained {m : Memory} {a start : Nat} {bk : Bank}
    {values : List Word} (hbk : m.bank a = some bk)
    (h : contained m a .holding start values.length = true) :
    bk.store .holding start values = .ok (bk.broadcastWrite start values) := by
  obtain ⟨m', hm'⟩ := Memory.hostStore_of_contained h
  obtain ⟨bk₀, bk', hbk₀, hstore, -⟩ := Memory.hostStore_cases hm'
  cases hbk.symm.trans hbk₀
  rw [hstore, Bank.broadcastWrite, Bank.write, hstore]

theorem Bank.broadcastWrite_of_not_contained {m : Memory} {a start : Nat} {bk : Bank}
    {values : List Word} (hbk : m.bank a = some bk)
    (h : contained m a .holding start values.length = false) :
    bk.broadcastWrite start values = bk := by
  unfold Bank.broadcastWrite
  split
  case h_2 => rfl
  case h_1 bk' hw =>
    obtain ⟨bs, hbs, -⟩ := Bank.store_cases (Bank.write_cases hw).2
    obtain ⟨b, hb, hc⟩ := writeBlocks_contained hbs
    have hcont := contained_iff.2 ⟨bk, b, hbk, hb, hc⟩
    simp [h] at hcont

theorem Bank.broadcastWrite_blockShapes (bk : Bank) (start : Nat) (values : List Word) (sp : Space) :
    blockShapes ((bk.broadcastWrite start values).blocks sp) = blockShapes (bk.blocks sp) := by
  unfold Bank.broadcastWrite
  split
  case h_1 bk' hw => exact Bank.store_blockShapes (Bank.write_cases hw).2 sp
  case h_2 => rfl

theorem layout_broadcastWrite (m : Memory) (start : Nat) (values : List Word) :
    layout (m.broadcastWrite start values) = layout m := by
  induction m with
  | nil => rfl
  | cons e m ih =>
    have hhold := e.2.broadcastWrite_blockShapes start values .holding
    have hinp := e.2.broadcastWrite_blockShapes start values .input
    simp only [blockShapes, Bank.blocks] at hhold hinp
    simp only [layout] at ih
    simp only [Memory.broadcastWrite, layout, List.map_cons, hhold, hinp, ih]

/-- After a broadcast write the range reads as the values in each slave that contains it, and every
other register as before. -/
theorem reg_broadcastWrite {m : Memory} {start : Nat} {values : List Word} (hwf : m.wf = true)
    (a : Nat) (sp : Space) (i : Nat) :
    (m.broadcastWrite start values).reg a sp i =
      if sp = .holding ∧ contained m a .holding start values.length = true ∧
          start ≤ i ∧ i < start + values.length then values[i - start]?
      else m.reg a sp i := by
  rw [Memory.reg_eq_wordAt, Memory.reg_eq_wordAt, Memory.bank_broadcastWrite]
  cases hbk : m.bank a with
  | none => simp [contained, hbk]
  | some bk =>
    cases hcont : contained m a .holding start values.length with
    | true =>
      have hstore := Bank.broadcastWrite_of_contained hbk hcont
      simp [Bank.store_wordAt (Memory.bank_wf hwf hbk) hstore sp i]
    | false => simp [Bank.broadcastWrite_of_not_contained hbk hcont]

theorem State.route_broadcast {s : State} {req : Instr} (onBroadcast onSlave : State)
    (ha : req.addr = 0x00#8) : s.route req onBroadcast onSlave = onBroadcast :=
  if_pos ha

theorem exec_wmr_broadcast (s : State) (ops : WriteOperands) :
    exec (.wmr 0x00#8 ops) s = .next (s.executeBroadcastWrite ops) :=
  congrArg Host.Outcome.next (State.route_broadcast (req := .wmr 0x00#8 ops) _ _ rfl)

theorem writeRange_of_ne_nil (start : Word) {values : List Word} (h : values ≠ []) :
    writeRange (.fields start values) = .ok (start, values) := by
  rw [writeRange, if_neg (by simpa using h)]

theorem State.executeBroadcastWrite_of_values (s : State) (start : Word) {values : List Word}
    (hv : values ≠ []) : s.executeBroadcastWrite (.fields start values) =
      s.setSlaves (s.slaves.broadcastWrite start.toNat values) := by
  rw [State.executeBroadcastWrite, writeRange_of_ne_nil start hv]

/-- Settles O25: all requests are routed to their broadcast, which for all but a write with values is
the state itself. -/
theorem broadcastWritesEverySlaveAndAnswersNone :
    Obligations.BroadcastWritesEverySlaveAndAnswersNone := by
  intro s hwf
  refine ⟨fun ops => ?_, fun ops => ?_, fun p => ?_, fun fc p => ?_, fun p => ?_, fun start => ?_,
    fun start values hv => ?_⟩
  · exact congrArg Host.Outcome.next (State.route_broadcast (req := .rhr 0x00#8 ops) _ _ rfl)
  · exact congrArg Host.Outcome.next (State.route_broadcast (req := .rir 0x00#8 ops) _ _ rfl)
  · exact congrArg Host.Outcome.next (State.route_broadcast (req := .wsr 0x00#8 p) _ _ rfl)
  · exact congrArg Host.Outcome.next (State.route_broadcast (req := .illegal 0x00#8 fc p) _ _ rfl)
  · exact exec_wmr_broadcast s _
  · exact exec_wmr_broadcast s _
  · refine ⟨s.slaves.broadcastWrite start.toNat values, ?_, layout_broadcastWrite _ _ _,
      fun a sp i => reg_broadcastWrite hwf a sp i⟩
    rw [exec_wmr_broadcast, State.executeBroadcastWrite_of_values s start hv]
    rfl

/-! ### What an instruction changes (rules R67, R204 to R206, R215 and R243) -/

/-- Between `s` and `t` nothing changed but the register banks and what has been emitted. -/
def SameControl (s t : State) : Prop :=
  t.params = s.params ∧ t.run = s.run ∧ t.asm = s.asm ∧
    t.errOnMissingSlave = s.errOnMissingSlave ∧ t.inputs = s.inputs

theorem SameControl.refl (s : State) : SameControl s s := ⟨rfl, rfl, rfl, rfl, rfl⟩

/-- What the instruction `i` makes of the banks `m`: nothing, or what a write of holding registers
stores in its slave or, as a broadcast, in all. -/
def BusStores (i : Instr) (m m' : Memory) : Prop :=
  m' = m ∨ ∃ dst start values, i = .wmr dst (.fields start values) ∧
    ((dst ≠ Config.addrBroadcast ∧ m.write dst.toNat .holding start.toNat values = .ok m') ∨
      (dst = Config.addrBroadcast ∧ m' = m.broadcastWrite start.toNat values))

/-- All that the instruction `i` can have changed between `s` and `t`, beside the outputs. -/
def Executes (i : Instr) (s t : State) : Prop := SameControl s t ∧ BusStores i s.slaves t.slaves

theorem Executes.refl (i : Instr) (s : State) : Executes i s s := ⟨.refl s, .inl rfl⟩

theorem State.transmit_executes (i : Instr) (s : State) (rsp : Instr) :
    Executes i s (s.transmit rsp) := .refl i s

theorem State.takeException_executes (i : Instr) (s : State) (req : Instr) (code : ExcCode) :
    Executes i s (s.takeException req code) := .refl i s

theorem State.missingSlave_executes (i : Instr) (s : State) (req : Instr) :
    Executes i s (s.missingSlave req) := by
  obtain ⟨-, h⟩ | ⟨-, h⟩ := s.missingSlave_cases req <;> rw [h] <;> exact .refl i s

theorem State.executeRead_executes (i : Instr) (s : State) (req : Instr) (sp : Space)
    (ops : ReadOperands) (answer : List Word → Instr) :
    Executes i s (s.executeRead req sp ops answer) := by
  obtain ⟨code, h⟩ | ⟨-, -, vs, -, -, -, -, -, h⟩ := s.executeRead_cases req sp ops answer <;>
    rw [h] <;> exact .refl i s

theorem State.executeWrite_executes (s : State) {a : Byte} (ops : WriteOperands)
    (ha : a ≠ Config.addrBroadcast) :
    Executes (.wmr a ops) s (s.executeWrite (.wmr a ops) ops) := by
  obtain ⟨code, h⟩ | ⟨start, values, m, rfl, -, hw, -, h⟩ :=
    s.executeWrite_cases (.wmr a ops) ops <;> rw [h]
  · exact s.takeException_executes _ _ code
  · exact ⟨.refl s, .inr ⟨a, start, values, rfl, .inl ⟨ha, hw⟩⟩⟩

theorem State.executeBroadcastWrite_executes (s : State) {a : Byte} (ops : WriteOperands)
    (ha : a = Config.addrBroadcast) : Executes (.wmr a ops) s (s.executeBroadcastWrite ops) := by
  obtain h | ⟨start, values, rfl, -, h⟩ := s.executeBroadcastWrite_cases ops <;> rw [h]
  · exact .refl _ s
  · exact ⟨.refl s, .inr ⟨a, start, values, rfl, .inr ⟨ha, rfl⟩⟩⟩

theorem State.route_executes {s onBroadcast onSlave : State} {req : Instr}
    (hb : req.addr = Config.addrBroadcast → Executes req s onBroadcast)
    (hs : req.addr ≠ Config.addrBroadcast → Executes req s onSlave) :
    Executes req s (s.route req onBroadcast onSlave) := by
  obtain ⟨ha, h⟩ | ⟨ha, -, h⟩ | ⟨-, -, h⟩ := s.route_cases req onBroadcast onSlave <;> rw [h]
  · exact hb ha
  · exact hs ha
  · exact s.missingSlave_executes req req

theorem exec_executes {i : Instr} {s t : State} (h : exec i s = .next t) : Executes i s t := by
  cases i with
  | rhr a ops =>
    cases h
    exact State.route_executes (fun _ => .refl _ s) fun _ => s.executeRead_executes _ _ _ _ _
  | rir a ops =>
    cases h
    exact State.route_executes (fun _ => .refl _ s) fun _ => s.executeRead_executes _ _ _ _ _
  | wmr a ops =>
    cases h
    exact State.route_executes (s.executeBroadcastWrite_executes ops) (s.executeWrite_executes ops)
  | wsr a p =>
    cases h
    exact State.route_executes (fun _ => .refl _ s) fun _ => s.takeException_executes _ _ _
  | illegal a fc p =>
    cases h
    exact State.route_executes (fun _ => .refl _ s) fun _ => s.takeException_executes _ _ _
  | rhrRsp | rirRsp | wmrRsp | exc => cases h; exact s.transmit_executes _ _

theorem BusStores.layout_eq {i : Instr} {m m' : Memory} (h : BusStores i m m') :
    layout m' = layout m := by
  obtain rfl | ⟨dst, start, values, -, ⟨-, hw⟩ | ⟨-, rfl⟩⟩ := h
  · rfl
  · obtain ⟨bk, bk', hbk, hbw, rfl⟩ := Memory.write_cases hw
    exact layout_setBank hbk (Bank.store_blockShapes (Bank.write_cases hbw).2)
  · exact layout_broadcastWrite m _ _

/-- A register that an instruction changed is one that a write of holding registers names. -/
theorem BusStores.names_of_reg_ne {i : Instr} {m m' : Memory} (hwf : m.wf = true)
    (h : BusStores i m m') {a j : Nat} {sp : Space} (hne : m'.reg a sp j ≠ m.reg a sp j) :
    ∃ (dst : Byte) (start : Word) (values : List Word), i = .wmr dst (.fields start values) ∧
      sp = .holding ∧ (dst = 0x00#8 ∨ dst.toNat = a) ∧
      start.toNat ≤ j ∧ j < start.toNat + values.length := by
  obtain rfl | ⟨dst, start, values, hi, ⟨-, hw⟩ | ⟨hdst, rfl⟩⟩ := h
  · exact absurd rfl hne
  · rw [(Memory.write_written hwf hw).2] at hne
    by_cases hin : a = dst.toNat ∧ sp = .holding ∧ start.toNat ≤ j ∧ j < start.toNat + values.length
    · obtain ⟨ha, hsp, hmin, hmax⟩ := hin
      exact ⟨dst, start, values, hi, hsp, .inr ha.symm, hmin, hmax⟩
    · exact absurd (if_neg hin) hne
  · rw [reg_broadcastWrite hwf] at hne
    by_cases hin : sp = .holding ∧ contained m a .holding start.toNat values.length = true ∧
        start.toNat ≤ j ∧ j < start.toNat + values.length
    · obtain ⟨hsp, -, hmin, hmax⟩ := hin
      exact ⟨dst, start, values, hi, hsp, .inl hdst, hmin, hmax⟩
    · exact absurd (if_neg hin) hne

/-- Settles O36: an instruction changes the banks alone, and those as `BusStores` says. -/
theorem instructionsChangeOnlyTheRegistersTheyName :
    Obligations.InstructionsChangeOnlyTheRegistersTheyName := by
  intro i s t hwf h
  obtain ⟨⟨hparams, hrun, hasm, hmode, hin⟩, hstores⟩ := exec_executes h
  exact ⟨hparams, hrun, hasm, hmode, hin, hstores.layout_eq,
    fun a sp j => hstores.names_of_reg_ne hwf⟩

end Sys2Proof.Machine
end

section
/-! PROOFS. The statements of 41_frame_assembler.md about dropped bytes, ticks, the stopped link and the
reception of a whole frame: what runs of ticks and of gapped bytes do, and the tick after them. -/

namespace Sys2Proof.Machine

open Sys2Proof.Claims

/-! ### Gaps and overflows (rules R164 and R165) -/

theorem State.rxByte_gap {s : State} (b : Byte) (hrun : s.run = true)
    (hrecv : s.asm.state = .receiving) (hgap : s.params.tIC ≤ s.asm.sil) :
    s.rxByte b = (s.emit (.asmDrop .interCharGap)).setAsm (Assembler.first b) := by
  simp [State.rxByte, hrun, hrecv, hgap]

theorem State.rxByte_oversize {s : State} (b : Byte) (hrun : s.run = true)
    (hrecv : s.asm.state = .receiving) (hgap : s.asm.sil < s.params.tIC)
    (hlen : Config.maxFrame ≤ s.asm.len) :
    s.rxByte b = (s.emit (.asmDrop .oversize)).setAsm Assembler.empty := by
  simp [State.rxByte, hrun, hrecv, Nat.not_le_of_lt hgap, Nat.not_lt_of_le hlen]

/-- Settles O16: the gap is the first branch of a byte in `Receiving`; and the silence of a sound
state is below `T_IF`. -/
theorem gapsAndOverflowsDropTheFrame : Obligations.GapsAndOverflowsDropTheFrame := by
  refine ⟨fun s b es hrun hin => ⟨fun hrecv hgap => ?_, fun hrecv hgap hlen => ?_⟩,
    fun s hs hrecv htimes => ?_⟩
  · exact (step_cons hin).trans
      (congrArg _ (State.rxByte_gap (s := s.setInputs es) b hrun hrecv hgap))
  · exact (step_cons hin).trans
      (congrArg _ (State.rxByte_oversize (s := s.setInputs es) b hrun hrecv hgap hlen.ge))
  · obtain ⟨-, hasm, -⟩ := s.sound_iff.1 hs
    obtain ⟨-, -, hsil⟩ := (Assembler.sound_receiving hrecv).1 hasm
    exact htimes ▸ hsil

/-! ### Ticks (rules R166, R167, R169 and R173) -/

theorem State.countTick_of_idle {s : State} (h : s.asm.state = .idle) : s.countTick = s := by
  simp [State.countTick, h]

theorem State.countTick_of_stopped {s : State} (h : s.run = false) : s.countTick = s := by
  simp [State.countTick, h]

theorem State.countTick_of_receiving {s : State} (hrun : s.run = true)
    (hrecv : s.asm.state = .receiving) :
    s.countTick = s.setAsm { s.asm with sil := s.asm.sil + 1 } := by
  simp [State.countTick, hrun, hrecv]

theorem State.frameEnds_eq_false_iff (s : State) :
    s.frameEnds = false ↔
      (s.run = true → s.asm.state = .receiving → s.asm.sil + 1 < s.params.tIF) := by
  rw [← Bool.not_eq_true, State.frameEnds_iff]
  simp

/-- A tick that ends no frame counts. -/
theorem step_tick_of_not_ends {s : State} {es : List Event} (hin : s.inputs = .tick :: es)
    (hends : s.frameEnds = false) : step s = .next (s.setInputs es).countTick := by
  have hfalse : ¬ (s.setInputs es).frameEnds = true := by rw [Bool.not_eq_true]; exact hends
  exact (step_cons hin).trans (if_neg hfalse)

theorem step_tick_idle {s : State} {es : List Event} (hin : s.inputs = .tick :: es)
    (hidle : s.asm.state = .idle) : step s = .next (s.setInputs es) := by
  rw [step_tick_of_not_ends hin ((State.frameEnds_eq_false_iff s).2 fun _ hrecv => by
    simp [hidle] at hrecv), State.countTick_of_idle (s := s.setInputs es) hidle]

theorem step_tick_receiving {s : State} {es : List Event} (hin : s.inputs = .tick :: es)
    (hrun : s.run = true) (hrecv : s.asm.state = .receiving)
    (hsil : s.asm.sil + 1 < s.params.tIF) :
    step s = .next ((s.setInputs es).setAsm { s.asm with sil := s.asm.sil + 1 }) := by
  rw [step_tick_of_not_ends hin ((State.frameEnds_eq_false_iff s).2 fun _ _ => hsil),
    State.countTick_of_receiving (s := s.setInputs es) hrun hrecv]
  rfl

theorem tickEvent_of_short {s : State} (hends : s.frameEnds = true)
    (hlen : s.asm.len < Config.minFrame) : tickEvent s = .next s.dropShort := by
  rw [tickEvent, if_pos hends, if_pos hlen]

/-- Settles O17: a tick that ends no frame counts, and one that ends a short frame drops it. -/
theorem tickTransitions : Obligations.TickTransitions := by
  intro s es hrun hin
  refine ⟨step_tick_idle hin, step_tick_receiving hin hrun, fun hrecv hsil hlen => ?_⟩
  have hends : (s.setInputs es).frameEnds = true :=
    (State.frameEnds_iff _).2 ⟨hrun, hrecv, hsil.ge⟩
  exact (step_cons hin).trans (tickEvent_of_short hends hlen)

/-- Settles O18: a stopped link looks at neither, and what ends a command leaves is `Idle`. -/
theorem linkIgnoredWhileStopped : Obligations.LinkIgnoredWhileStopped := by
  intro s es
  refine ⟨fun b hrun hin => ?_, fun hrun hin => ?_, fun hin => ⟨_, step_stop hin, rfl⟩,
    fun hrun hin => ⟨_, step_start_of_stopped hin hrun, rfl⟩⟩
  · have hignored : (s.setInputs es).rxByte b = s.setInputs es := by simp [State.rxByte, hrun]
    exact (step_cons hin).trans (congrArg _ hignored)
  · rw [step_tick_of_not_ends hin ((State.frameEnds_eq_false_iff s).2 fun hr => by simp [hrun] at hr),
      State.countTick_of_stopped (s := s.setInputs es) hrun]
    rfl

/-! ### Reception of a whole frame (rules R168, R170 and R174) -/

/-- `s` with the frame `buf` in reception for `sil` ticks of silence, and the events `es` to come. -/
def receiving (s : State) (buf : List Byte) (sil : Nat) (es : List Event) : State :=
  { s with asm := { state := .receiving, buf := buf, sil := sil }, inputs := es }

theorem steps_ticks_idle {s : State} {n : Nat} {es : List Event} (hidle : s.asm.state = .idle)
    (hin : s.inputs = List.replicate n .tick ++ es) : steps n s = .next (s.setInputs es) := by
  induction n generalizing s with
  | zero =>
    cases hin
    rfl
  | succ n ih =>
    rw [steps_succ (step_tick_idle hin hidle)]
    exact ih hidle rfl

section
variable {s : State} (hrun : s.run = true)
include hrun

theorem steps_ticks_receiving (buf : List Byte) (es : List Event) {n sil : Nat}
    (hsil : sil + n < s.params.tIF) :
    steps n (receiving s buf sil (List.replicate n .tick ++ es)) =
      .next (receiving s buf (sil + n) es) := by
  induction n generalizing sil with
  | zero => rfl
  | succ n ih =>
    have hstep : step (receiving s buf sil (List.replicate (n + 1) .tick ++ es)) =
        .next (receiving s buf (sil + 1) (List.replicate n .tick ++ es)) :=
      step_tick_receiving rfl hrun rfl (by simp only [receiving]; omega)
    rw [steps_succ hstep, ih (by omega), Nat.add_assoc, Nat.add_comm 1 n]

theorem step_rxByte_receiving {buf : List Byte} {sil : Nat} (b : Byte) (es : List Event)
    (hgap : sil < s.params.tIC) (hlen : buf.length < Config.maxFrame) :
    step (receiving s buf sil (.rxByte b :: es)) = .next (receiving s (buf ++ [b]) 0 es) :=
  (step_cons rfl).trans (congrArg _ (State.rxByte_append
    (s := (receiving s buf sil (.rxByte b :: es)).setInputs es) b hrun rfl hgap hlen))

/-- Bytes with gaps below `T_IC` all join the frame in reception, as long as it has room for them. -/
theorem steps_gapped_receiving (hlegal : s.params.tIC ≤ s.params.tIF) (es : List Event)
    {gs : List (Nat × Byte)} {buf : List Byte} (hgaps : ∀ x ∈ gs, x.1 < s.params.tIC)
    (hlen : buf.length + gs.length ≤ Config.maxFrame) :
    steps (gapped gs).length (receiving s buf 0 (gapped gs ++ es)) =
      .next (receiving s (buf ++ gs.map Prod.snd) 0 es) := by
  induction gs generalizing buf with
  | nil => simp [gapped, steps]
  | cons x gs ih =>
    obtain ⟨g, b⟩ := x
    obtain ⟨hg, hgaps⟩ := List.forall_mem_cons.1 hgaps
    rw [List.length_cons] at hlen
    have hticks := steps_ticks_receiving hrun buf (.rxByte b :: gapped gs ++ es)
      (n := g) (sil := 0) (by omega)
    have hbyte := step_rxByte_receiving hrun (buf := buf) (sil := 0 + g) b (gapped gs ++ es)
      (by omega) (by omega)
    have hrest := ih (buf := buf ++ [b]) hgaps (by simp; omega)
    have hsplit : (gapped ((g, b) :: gs)).length = g + ((gapped gs).length + 1) := by
      simp [gapped]
    have hevents : gapped ((g, b) :: gs) ++ es =
        List.replicate g .tick ++ (.rxByte b :: gapped gs ++ es) := by simp [gapped]
    rw [hsplit, hevents, steps_add hticks, List.cons_append, steps_succ hbyte, hrest]
    simp

end

/-- A whole frame received from `Idle`: its first byte starts it, after any number of ticks. -/
theorem steps_gapped_idle {s : State} {gs : List (Nat × Byte)} {es : List Event}
    (hlegal : s.params.tIC ≤ s.params.tIF) (hrun : s.run = true) (hidle : s.asm.state = .idle)
    (hne : gs ≠ []) (hmax : gs.length ≤ Config.maxFrame) (hgaps : ∀ x ∈ gs, x.1 < s.params.tIC)
    (hin : s.inputs = gapped gs ++ es) :
    steps (gapped gs).length s = .next (receiving s (gs.map Prod.snd) 0 es) := by
  match gs, hne with
  | (g, b) :: gs, _ =>
    have hsplit : (gapped ((g, b) :: gs)).length = g + ((gapped gs).length + 1) := by
      simp [gapped]
    have hevents : s.inputs = List.replicate g .tick ++ (.rxByte b :: gapped gs ++ es) := by
      rw [hin]
      simp [gapped]
    have hbyte : step (s.setInputs (.rxByte b :: gapped gs ++ es)) =
        .next (receiving s [b] 0 (gapped gs ++ es)) :=
      (step_cons rfl).trans (congrArg _ (State.rxByte_idle
        (s := s.setInputs (gapped gs ++ es)) b hrun hidle))
    have hrest := steps_gapped_receiving hrun hlegal es (gs := gs) (buf := [b])
      (List.forall_mem_cons.1 hgaps).2 (by simpa [Nat.add_comm] using hmax)
    rw [hsplit, steps_add (steps_ticks_idle hidle hevents), steps_succ hbyte, hrest]
    rfl

theorem steps_one (s : State) : steps 1 s = step s := by
  obtain ⟨t, ht⟩ := step_isNext s
  rw [steps_succ ht, ht]
  rfl

theorem dispatch_of_corrupt {f : List Byte} (s : State) (h : verify f = false) :
    dispatch f s = .next (emits s [.errorHook .crcMismatch f]) := by
  rw [dispatch, h, if_neg Bool.false_ne_true]
  rfl

/-- Settles O19: the bytes all join one frame, the ticks before the last are counted, and the last
one dispatches the frame from the state in which its reception began. -/
theorem gappedFrameIsDispatchedOnce : Obligations.GappedFrameIsDispatchedOnce := by
  intro s gs es hlegal hrun hasm hmin hmax hgaps hin
  obtain ⟨hic, hif⟩ : 1 ≤ s.params.tIC ∧ s.params.tIC ≤ s.params.tIF := of_decide_eq_true hlegal
  have hidle : s.asm.state = .idle := by rw [hasm]
  have hevents : s.inputs =
      gapped gs ++ (List.replicate (s.params.tIF - 1) .tick ++ .tick :: es) := by
    have hticks : List.replicate s.params.tIF Event.tick =
        List.replicate (s.params.tIF - 1) .tick ++ [.tick] := by
      rw [← List.replicate_succ', Nat.sub_add_cancel (by omega)]
    rw [hin, hticks]
    simp only [List.append_assoc, List.singleton_append]
  have hwait : steps ((gapped gs).length + (s.params.tIF - 1)) s =
      .next (receiving s (gs.map Prod.snd) (s.params.tIF - 1) (.tick :: es)) := by
    rw [steps_add (steps_gapped_idle hif hrun hidle (List.length_pos_iff.1 (by omega)) hmax hgaps
      hevents), steps_ticks_receiving hrun _ _ (by omega), Nat.zero_add]
  have hlast : steps ((gapped gs).length + s.params.tIF) s =
      dispatch (gs.map Prod.snd) { s with inputs := es } := by
    have hcompletes : completes (receiving s (gs.map Prod.snd) (s.params.tIF - 1) (.tick :: es)) es :=
      ⟨rfl, hrun, rfl, Nat.sub_add_cancel (by omega)⟩
    have hlen : Config.minFrame ≤ (gs.map Prod.snd).length := by
      rw [List.length_map]
      exact hmin
    have hready : ready (receiving s (gs.map Prod.snd) (s.params.tIF - 1) (.tick :: es)) es =
        { s with inputs := es } := by rw [ready, receiving, ← hasm]
    have hsplit : (gapped gs).length + s.params.tIF =
        (gapped gs).length + (s.params.tIF - 1) + 1 := by omega
    rw [hsplit, steps_add hwait, steps_one, step_of_completes hcompletes hlen, hready]
    rfl
  refine ⟨?_, fun i hi => ?_, fun hv => ?_⟩
  · rw [Nat.add_sub_assoc (by omega)]
    exact hwait
  · rw [hlast, dispatch_of_decode _ hi]
  · rw [hlast, dispatch_of_corrupt _ hv]

end Sys2Proof.Machine
end

section
/-! PROOFS. The statements of 43_functions.md about reads and writes that fail, each check in its order,
and of 70_reset_and_hazards.md about a read of what was just written. -/

namespace Sys2Proof.Machine

open Sys2Proof.Claims

theorem State.internalFault_eq_true {s : State} {a : Byte} {pdu : List Byte}
    (h : (a, pdu) ∈ s.params.internalFault) : s.internalFault a pdu = true := by
  simpa [State.internalFault] using h

/-- A request to a registered slave whose execution takes an exception is answered with its code. -/
theorem State.route_takeException {s onBroadcast onSlave : State} {req : Instr} {fc : Byte}
    {p : List Byte} {code : ExcCode} (ha : req.addr ≠ 0x00#8)
    (hr : s.registered req.addr.toNat = true) (hpdu : req.pdu = fc :: p)
    (h : onSlave = s.takeException req code) :
    s.route req onBroadcast onSlave =
      answered s req.addr (fc :: p) [fc ||| 0x80#8, excByte code] := by
  rw [State.route_registered _ _ ha hr, h, State.takeException_eq_answered s code hpdu]

/-! ### Reads (rules R240 to R242) -/

theorem readRange_of_count_ne_zero {start count : Word} (h : count.toNat ≠ 0) :
    readRange (.fields start count) = .ok (start, count.toNat) := by
  rw [readRange, if_neg h]

section
variable (s : State) (req : Instr) (sp : Space) {start count : Word} (answer : List Word → Instr)

theorem State.executeRead_malformed (p : List Byte) :
    s.executeRead req sp (.malformed p) answer = s.takeException req .illegalDataValue := rfl

theorem State.executeRead_count_zero (h : count.toNat = 0) :
    s.executeRead req sp (.fields start count) answer =
      s.takeException req .illegalDataValue := by
  simp only [State.executeRead, readRange]
  rw [if_pos h]

theorem State.executeRead_not_contained (h : count.toNat ≠ 0)
    (hout : contained s.slaves req.addr.toNat sp start.toNat count.toNat = false) :
    s.executeRead req sp (.fields start count) answer =
      s.takeException req .illegalDataAddress := by
  simp only [State.executeRead, readRange_of_count_ne_zero h, Memory.read_of_not_contained hout,
    excOfBankError]

end

/-- A read of a contained range goes on to checks c5 and c6. -/
theorem State.executeRead_contained {s : State} {req : Instr} {sp : Space} {start count : Word}
    (answer : List Word → Instr) (hwf : s.slaves.wf = true) (h : count.toNat ≠ 0)
    (hin : contained s.slaves req.addr.toNat sp start.toNat count.toNat = true) :
    ∃ vs, s.executeRead req sp (.fields start count) answer =
      if Config.maxReadCount < count.toNat then s.takeException req .illegalDataValue
      else if s.internalFault req.addr req.pdu then s.takeException req .slaveDeviceFailure
      else s.respond req (answer vs) := by
  obtain ⟨bk, b, hbk, hb, hc⟩ := contained_iff.1 hin
  have hread := Memory.read_of_contains hwf hbk hb (Nat.pos_of_ne_zero h) hc
  refine ⟨b.load (start.toNat - b.start) count.toNat, ?_⟩
  simp only [State.executeRead, readRange_of_count_ne_zero h, hread]

section
variable {mk : Byte → ReadOperands → Instr} {mkRsp : Byte → List Word → Instr} {fc : Byte}
  {sp : Space} (hmk : IsRead mk mkRsp fc sp)
include hmk

theorem IsRead.exec_eq_exception {s : State} {a : Byte} {ops : ReadOperands} {code : ExcCode}
    (ha : a ≠ 0x00#8) (hr : s.registered a.toNat = true)
    (h : s.executeRead (mk a ops) sp ops (mkRsp a) = s.takeException (mk a ops) code) :
    exec (mk a ops) s =
      .next (answered s a (fc :: encodeReadOperands ops) [fc ||| 0x80#8, excByte code]) := by
  have haddr := hmk.addr a ops
  rw [hmk.exec_eq, State.route_takeException (by rwa [haddr]) (by rwa [haddr]) (hmk.pdu a ops) h,
    haddr]

/-- Check c4 comes before the bound on the count. -/
theorem IsRead.exec_not_contained {s : State} {a : Byte} {start count : Word} (ha : a ≠ 0x00#8)
    (hr : s.registered a.toNat = true) (hne : count.toNat ≠ 0)
    (hout : contained s.slaves a.toNat sp start.toNat count.toNat = false) :
    exec (mk a (.fields start count)) s =
      .next (answered s a (readPdu fc start count) [fc ||| 0x80#8, 0x02#8]) :=
  hmk.exec_eq_exception ha hr
    (State.executeRead_not_contained s _ sp _ hne (by rwa [hmk.addr]))

theorem IsRead.readFails : readFails mk fc sp := by
  intro s a hwf ha hr
  refine ⟨fun p => ?_, fun start count => ⟨fun hzero => ?_, fun hne hout => ?_, fun hlong hin => ?_,
    fun hmin hmax hin hf => ?_⟩⟩
  · exact hmk.exec_eq_exception ha hr (State.executeRead_malformed s _ sp _ p)
  · exact hmk.exec_eq_exception ha hr (State.executeRead_count_zero s _ sp _ hzero)
  · exact hmk.exec_not_contained ha hr hne hout
  · obtain ⟨vs, hread⟩ := State.executeRead_contained (req := mk a (.fields start count))
      (sp := sp) (start := start) (count := count) (mkRsp a) hwf (by omega) (by rwa [hmk.addr])
    exact hmk.exec_eq_exception ha hr (hread.trans (if_pos hlong))
  · obtain ⟨vs, hread⟩ := State.executeRead_contained (req := mk a (.fields start count))
      (sp := sp) (start := start) (count := count) (mkRsp a) hwf (by omega) (by rwa [hmk.addr])
    have hfault : s.internalFault (mk a (.fields start count)).addr
        (mk a (.fields start count)).pdu = true := by
      rw [hmk.addr, hmk.pdu]
      exact State.internalFault_eq_true hf
    rw [if_neg (Nat.not_lt_of_le hmax), if_pos hfault] at hread
    exact hmk.exec_eq_exception ha hr hread

end

/-- Settles O29: both are read functions, and a read function meets the checks in this order. -/
theorem failedReadsAnswerExceptions : Obligations.FailedReadsAnswerExceptions :=
  ⟨isRead_rhr.readFails, isRead_rir.readFails⟩

/-! ### Writes (rules R240 and R243) -/

theorem exec_wmr_eq_exception {s : State} {a : Byte} {ops : WriteOperands} {code : ExcCode}
    (ha : a ≠ 0x00#8) (hr : s.registered a.toNat = true)
    (h : s.executeWrite (.wmr a ops) ops = s.takeException (.wmr a ops) code) :
    exec (.wmr a ops) s =
      .next (answered s a (0x10#8 :: encodeWriteOperands ops) [0x90#8, excByte code]) :=
  congrArg Host.Outcome.next (State.route_takeException (req := .wmr a ops) ha hr rfl h)

theorem State.executeWrite_not_contained {s : State} {req : Instr} {start : Word}
    {values : List Word} (hv : values ≠ [])
    (hout : contained s.slaves req.addr.toNat .holding start.toNat values.length = false) :
    s.executeWrite req (.fields start values) = s.takeException req .illegalDataAddress := by
  simp only [State.executeWrite, writeRange_of_ne_nil start hv, Memory.write_holding,
    Memory.hostStore_of_not_contained hout, excOfBankError]

theorem State.executeWrite_fault {s : State} {req : Instr} {start : Word} {values : List Word}
    (hv : values ≠ [])
    (hin : contained s.slaves req.addr.toNat .holding start.toNat values.length = true)
    (hf : s.internalFault req.addr req.pdu = true) :
    s.executeWrite req (.fields start values) = s.takeException req .slaveDeviceFailure := by
  obtain ⟨m, hm⟩ := Memory.write_of_contained hin
  simp only [State.executeWrite, writeRange_of_ne_nil start hv, hm]
  rw [if_pos hf]

/-- Settles O31: each clause is one branch of the write function, before its store. -/
theorem failedWritesAnswerExceptions : Obligations.FailedWritesAnswerExceptions := by
  intro s a _ ha hr
  refine ⟨fun p => ?_, fun start => ?_, fun start values hv hout => ?_,
    fun start values hv hin hf => ?_⟩
  · exact exec_wmr_eq_exception (ops := .malformed p) (code := .illegalDataValue) ha hr rfl
  · exact exec_wmr_eq_exception (ops := .fields start []) (code := .illegalDataValue) ha hr rfl
  · exact exec_wmr_eq_exception ha hr (State.executeWrite_not_contained hv hout)
  · exact exec_wmr_eq_exception ha hr
      (State.executeWrite_fault hv hin (State.internalFault_eq_true hf))

/-! ### Ranges past the last address (rule R65) -/

theorem blocksWf_end_le {lo : Nat} {bs : List Block} {b : Block} (h : blocksWf lo bs = true)
    (hb : b ∈ bs) : b.start + b.length ≤ Config.spaceSize := by
  induction bs generalizing lo with
  | nil => cases hb
  | cons c cs ih =>
    obtain ⟨⟨-, -, hend⟩, hcs⟩ := blocksWf_cons.1 h
    rcases List.mem_cons.1 hb with rfl | hb
    · exact hend
    · exact ih hcs hb

theorem not_contained_of_past_end {m : Memory} {start count : Nat} (a : Nat) (sp : Space)
    (hwf : m.wf = true) (h : Config.spaceSize < start + count) :
    contained m a sp start count = false := by
  rw [← Bool.not_eq_true, contained_iff]
  rintro ⟨bk, b, hbk, hb, hc⟩
  have hend := blocksWf_end_le ((Bank.wf_iff bk).1 (Memory.bank_wf hwf hbk) sp) hb
  rw [Block.contains_iff] at hc
  omega

/-- Settles O14: no block of a canonical table contains such a range, so the check c4 fails. -/
theorem rangesPastTheLastAddressFail : Obligations.RangesPastTheLastAddressFail := by
  intro s a start hwf ha hr
  refine ⟨fun count hne hpast => ⟨?_, ?_⟩, fun values hv hpast => ?_⟩
  · exact isRead_rhr.exec_not_contained ha hr hne
      (not_contained_of_past_end _ _ hwf hpast)
  · exact isRead_rir.exec_not_contained ha hr hne
      (not_contained_of_past_end _ _ hwf hpast)
  · exact exec_wmr_eq_exception ha hr
      (State.executeWrite_not_contained hv (not_contained_of_past_end _ _ hwf hpast))

/-! ### A read of what was written (rules R70 and R351) -/

/-- Settles O37: the write leaves a table that reads the values back, and the read answers them. -/
theorem readAfterWriteSeesTheValues : Obligations.ReadAfterWriteSeesTheValues := by
  intro s t a start values hwf ha hv hmax hcont hsilent hexec
  obtain ⟨bk, -, hbk, -⟩ := contained_iff.1 hcont
  obtain ⟨m, hm⟩ := Memory.write_of_contained hcont
  have hwrite := exec_wmr_eq_answered ha (State.registered_of_bank hbk) hv hm
    (by simp [hsilent])
  cases hwrite.symm.trans hexec
  have hcount : (BitVec.ofNat 16 values.length).toNat = values.length := by
    rw [BitVec.toNat_ofNat]
    omega
  have hread : m.read a.toNat .holding start.toNat (BitVec.ofNat 16 values.length).toNat =
      .ok values := by
    rw [hcount]
    exact Memory.read_of_hostStore hm
  obtain ⟨bk', -, hbk', -⟩ := Memory.read_cases hread
  have hpos := List.length_pos_iff.2 hv
  exact isRead_rhr.exec_eq_answered ha (State.registered_of_bank (s := { s with slaves := m }) hbk')
    (by omega) (by simp only [Config.maxReadCount]; omega) hread (by simp [answered, emits, hsilent])

end Sys2Proof.Machine
end

section
/-! PROOFS. The statements of 44_register_bank_and_host.md and 60_exceptions.md about single host
commands: when each is refused, and what it makes of the slave table when it is not. -/

namespace Sys2Proof.Machine

open Sys2Proof.Claims

theorem State.registered_eq_false_iff {s : State} {a : Nat} :
    s.registered a = false ↔ s.slaves.bank a = none := by
  simp [State.registered]

/-- The step that takes a host command ends in the state the command gives. -/
theorem step_of_handle {s t : State} {e : Event} {es : List Event} (hin : s.inputs = e :: es)
    (h : handle e (s.setInputs es) = .next t) : step s = .next t :=
  (step_cons hin).trans h

/-! ### Slaves (rules R270 and R271) -/

theorem State.addSlave_of_invalid {s : State} {a : Nat} (h : a < 1 ∨ 247 < a) :
    s.addSlave a = s.configError .invalidAddress := if_pos h

theorem State.addSlave_of_registered {s : State} {a : Nat} (hmin : 1 ≤ a) (hmax : a ≤ 247)
    (h : s.registered a = true) : s.addSlave a = s.configError .duplicateAddress := by
  rw [State.addSlave, if_neg (by simp only [Config.addrMin, Config.addrMax]; omega), if_pos h]

theorem State.addSlave_of_free {s : State} {a : Nat} (hmin : 1 ≤ a) (hmax : a ≤ 247)
    (h : s.registered a = false) :
    s.addSlave a = (s.setSlaves (s.slaves.insert a { hold := [], inp := [] })).result .ok := by
  rw [State.addSlave, if_neg (by simp only [Config.addrMin, Config.addrMax]; omega),
    if_neg (by simp [h])]

theorem Memory.bank_insert {m : Memory} {a : Nat} {bk : Bank} (h : m.bank a = none) (a' : Nat) :
    Memory.bank (m.insert a bk) a' = if a' = a then some bk else m.bank a' := by
  induction m with
  | nil => simp [Memory.insert, Memory.bank, eq_comm]
  | cons e m ih =>
    obtain ⟨x, b⟩ := e
    by_cases hx : x = a
    · simp [Memory.bank, hx] at h
    · rw [Memory.bank, if_neg hx] at h
      by_cases hlt : a < x
      · simp [Memory.insert, hlt, Memory.bank, eq_comm]
      · rw [Memory.insert, if_neg hlt, Memory.bank, Memory.bank, ih h]
        by_cases hxa : x = a'
        · rw [if_pos hxa, if_pos hxa, if_neg (hxa ▸ hx)]
        · rw [if_neg hxa, if_neg hxa]

/-- Settles O38: the bounds are checked first, then the table, and a free address is inserted. -/
theorem addSlaveRegistersAnEmptyBank : Obligations.AddSlaveRegistersAnEmptyBank := by
  intro s a es hin
  refine ⟨fun h => ?_, fun hmin hmax h => ?_, fun hmin hmax h =>
    ⟨s.slaves.insert a { hold := [], inp := [] }, ?_, ?_⟩⟩
  · exact step_of_handle hin (congrArg _ (State.addSlave_of_invalid h))
  · exact step_of_handle hin
      (congrArg _ (State.addSlave_of_registered (s := s.setInputs es) hmin hmax h))
  · exact step_of_handle hin (congrArg _ (State.addSlave_of_free (s := s.setInputs es) hmin hmax h))
  · exact Memory.bank_insert (State.registered_eq_false_iff.1 h)

theorem State.removeSlave_of_unregistered {s : State} {a : Nat} (h : s.registered a = false) :
    s.removeSlave a = s.configError .unknownSlave := by
  rw [State.removeSlave, if_neg (by simp [h])]

theorem State.removeSlave_of_registered {s : State} {a : Nat} (h : s.registered a = true) :
    s.removeSlave a = (s.setSlaves (s.slaves.remove a)).result .ok := if_pos h

theorem Memory.bank_eq_none_of_lt {lo a : Nat} {m : Memory} (h : Memory.wfFrom lo m = true)
    (ha : a < lo) : m.bank a = none := by
  by_contra hne
  have := (Memory.bank_isSome_bounds h (Option.isSome_iff_ne_none.2 hne)).1
  omega

/-- In a canonical table the entry removed was the only one of its address. -/
theorem Memory.bank_remove {lo a : Nat} {m : Memory} (h : Memory.wfFrom lo m = true) (a' : Nat) :
    Memory.bank (m.remove a) a' = if a' = a then none else m.bank a' := by
  induction m generalizing lo with
  | nil => simp [Memory.remove, Memory.bank]
  | cons e m ih =>
    obtain ⟨x, b⟩ := e
    obtain ⟨-, -, hm⟩ := Memory.wfFrom_cons.1 h
    by_cases hx : x = a
    · subst hx
      rw [Memory.remove, if_pos rfl]
      by_cases ha : a' = x
      · rw [if_pos ha, ha]
        exact Memory.bank_eq_none_of_lt hm (Nat.lt_succ_self x)
      · rw [if_neg ha, Memory.bank, if_neg (Ne.symm ha)]
    · rw [Memory.remove, if_neg hx, Memory.bank, Memory.bank, ih hm]
      by_cases hxa : x = a'
      · rw [if_pos hxa, if_pos hxa, if_neg (hxa ▸ hx)]
      · rw [if_neg hxa, if_neg hxa]

/-- Settles O39: a registered address is removed, and with it its only bank. -/
theorem removeSlaveDestroysTheBank : Obligations.RemoveSlaveDestroysTheBank := by
  intro s a es hwf hin
  refine ⟨fun h => ?_, fun h => ⟨_, ?_, Memory.bank_remove hwf⟩⟩
  · exact step_of_handle hin
      (congrArg _ (State.removeSlave_of_unregistered (s := s.setInputs es) h))
  · exact step_of_handle hin (congrArg _ (State.removeSlave_of_registered (s := s.setInputs es) h))

/-! ### Blocks (rules R272 and R273) -/

/-- The bank `bk` with the block that `AddBlock` declares in one space (rule R272). -/
def Bank.withBlock (bk : Bank) (sp : Space) (start length : Nat) : Bank :=
  bk.setBlocks sp (insertBlock (newBlock start length) (bk.blocks sp))

theorem State.addBlock_of_unregistered {s : State} {a : Nat} (sp : Space) (start : Word)
    (length : Nat) (h : s.slaves.bank a = none) :
    s.addBlock a sp start length = s.configError .unknownSlave := by
  rw [State.addBlock, h]

section
variable {s : State} {a length : Nat} {sp : Space} {start : Word} {bk : Bank}
  (hbk : s.slaves.bank a = some bk)
include hbk

theorem State.addBlock_of_invalid (h : length < 1 ∨ 65536 < start.toNat + length) :
    s.addBlock a sp start length = s.configError .invalidBlock := by
  simp only [State.addBlock, hbk]
  rw [if_pos h]

theorem State.addBlock_of_overlap (hmin : 1 ≤ length) (hmax : start.toNat + length ≤ 65536)
    (h : (bk.blocks sp).any (fun b => b.intersects start.toNat length) = true) :
    s.addBlock a sp start length = s.configError .overlapError := by
  simp only [State.addBlock, hbk]
  rw [if_neg (by simp only [Config.spaceSize]; omega), if_pos h]

theorem State.addBlock_of_free (hmin : 1 ≤ length) (hmax : start.toNat + length ≤ 65536)
    (h : (bk.blocks sp).any (fun b => b.intersects start.toNat length) = false) :
    s.addBlock a sp start length =
      (s.setSlaves (s.slaves.setBank a (bk.withBlock sp start.toNat length))).result .ok := by
  simp only [State.addBlock, hbk]
  rw [if_neg (by simp only [Config.spaceSize]; omega), if_neg (by simp [h])]
  rfl

end

theorem mem_insertBlock {b c : Block} {bs : List Block} :
    c ∈ insertBlock b bs ↔ c ∈ bs ∨ c = b := by
  induction bs with
  | nil => simp [insertBlock]
  | cons d ds ih =>
    simp only [insertBlock]
    split
    · simp [or_comm]
    · simp [ih, or_assoc]

theorem Block.intersects_iff (b : Block) (start length : Nat) :
    b.intersects start length = true ↔ start < b.start + b.length ∧ b.start < start + length := by
  simp [Block.intersects]

theorem Block.intersects_eq_false_iff (b : Block) (start length : Nat) :
    b.intersects start length = false ↔ b.start + b.length ≤ start ∨ start + length ≤ b.start := by
  rw [← Bool.not_eq_true, Block.intersects_iff]
  omega

/-- Settles O40: the checks come in the order of the clauses, and a free block is inserted. -/
theorem addBlockDeclaresAFreeRange : Obligations.AddBlockDeclaresAFreeRange := by
  intro s a sp start length es hin
  refine ⟨fun h => ?_, fun bk hbk => ⟨fun h => ?_, fun hmin hmax h => ?_, fun hmin hmax h => ?_⟩⟩
  · exact step_of_handle hin
      (congrArg _ (State.addBlock_of_unregistered (s := s.setInputs es) sp start length h))
  · exact step_of_handle hin (congrArg _ (State.addBlock_of_invalid (s := s.setInputs es) hbk h))
  · have hany : (bk.blocks sp).any (fun b => b.intersects start.toNat length) = true := by
      simpa only [List.any_eq_true, Block.intersects_iff] using h
    exact step_of_handle hin
      (congrArg _ (State.addBlock_of_overlap (s := s.setInputs es) hbk hmin hmax hany))
  · have hany : (bk.blocks sp).any (fun b => b.intersects start.toNat length) = false := by
      simpa only [List.any_eq_false, Bool.not_eq_true, Block.intersects_eq_false_iff] using h
    refine ⟨_, bk.withBlock sp start.toNat length, step_of_handle hin
      (congrArg _ (State.addBlock_of_free (s := s.setInputs es) hbk hmin hmax hany)),
      Memory.bank_setBank_same hbk, fun a' ha' => Memory.bank_setBank_other ha',
      fun sp' hsp' => Bank.setBlocks_other bk _ hsp', fun b => ?_⟩
    rw [Bank.withBlock, Bank.setBlocks_blocks]
    exact mem_insertBlock

/-! ### The owner's accesses (rules R277 and R278) -/

theorem State.hostWrite_of_unregistered {s : State} {a : Nat} (sp : Space) (start : Word)
    (values : List Word) (h : s.registered a = false) :
    s.hostWrite a sp start values = s.configError .unknownSlave := by
  rw [State.hostWrite, if_neg (by simp [h])]

theorem State.hostWrite_of_nil {s : State} {a : Nat} (sp : Space) (start : Word)
    (h : s.registered a = true) : s.hostWrite a sp start [] = s.configError .illegalAddress := by
  rw [State.hostWrite, if_pos h, if_pos List.length_nil]

theorem State.hostWrite_of_error {s : State} {a : Nat} {sp : Space} {start : Word}
    {values : List Word} {x : BankError} (hr : s.registered a = true) (hv : values ≠ [])
    (h : s.slaves.hostStore a sp start.toNat values = .error x) :
    s.hostWrite a sp start values = s.configError .illegalAddress := by
  rw [State.hostWrite, if_pos hr, if_neg (by simpa using hv), h]
  cases x <;> rfl

theorem Memory.hostStore_written {m m' : Memory} {a start : Nat} {sp : Space} {values : List Word}
    (hm : m.wf = true) (h : m.hostStore a sp start values = .ok m') :
    written m m' a sp start values := by
  obtain ⟨bk, bk', hbk, hstore, rfl⟩ := Memory.hostStore_cases h
  exact written_setBank hm hbk hstore

/-- Settles O41: a contained range is stored in the one slave, as `written` says. -/
theorem hostWriteStoresInEitherSpace : Obligations.HostWriteStoresInEitherSpace := by
  intro s a sp start values es hwf hin
  refine ⟨fun hr => ?_, fun hr hv => ?_, fun hr hv h => ?_, fun hr hv h => ?_⟩
  · exact step_of_handle hin
      (congrArg _ (State.hostWrite_of_unregistered (s := s.setInputs es) sp start values hr))
  · subst hv
    exact step_of_handle hin (congrArg _ (State.hostWrite_of_nil (s := s.setInputs es) sp start hr))
  · exact step_of_handle hin
      (congrArg _ (State.hostWrite_of_error (s := s.setInputs es) hr hv
        (Memory.hostStore_of_not_contained h)))
  · obtain ⟨m, hm⟩ := Memory.hostStore_of_contained h
    exact ⟨m, step_hostWrite_of_ok hin hv hm, Memory.hostStore_written hwf hm⟩

theorem State.hostRead_of_unregistered {s : State} {a : Nat} (sp : Space) (start : Word)
    (count : Nat) (h : s.registered a = false) :
    s.hostRead a sp start count = s.configError .unknownSlave := by
  rw [State.hostRead, if_neg (by simp [h])]

theorem State.hostRead_of_zero {s : State} {a : Nat} (sp : Space) (start : Word)
    (h : s.registered a = true) : s.hostRead a sp start 0 = s.configError .illegalAddress := by
  rw [State.hostRead, if_pos h, if_pos rfl]

theorem State.hostRead_of_error {s : State} {a count : Nat} {sp : Space} {start : Word}
    {x : BankError} (hr : s.registered a = true) (hcount : count ≠ 0)
    (h : s.slaves.read a sp start.toNat count = .error x) :
    s.hostRead a sp start count = s.configError .illegalAddress := by
  rw [State.hostRead, if_pos hr, if_neg hcount, h]
  cases x <;> rfl

/-- Settles O42: a contained range is read from the one block that contains it. -/
theorem hostReadGivesTheWords : Obligations.HostReadGivesTheWords := by
  intro s a sp start count es hwf hin
  refine ⟨fun hr => ?_, fun hr hcount => ?_, fun hr hcount h => ?_, fun bk b hbk hcount hb hc => ?_⟩
  · exact step_of_handle hin
      (congrArg _ (State.hostRead_of_unregistered (s := s.setInputs es) sp start count hr))
  · subst hcount
    exact step_of_handle hin (congrArg _ (State.hostRead_of_zero (s := s.setInputs es) sp start hr))
  · exact step_of_handle hin
      (congrArg _ (State.hostRead_of_error (s := s.setInputs es) hr hcount
        (Memory.read_of_not_contained h)))
  · exact step_hostRead_of_ok hin hcount
      (Memory.read_of_contains hwf hbk hb (Nat.pos_of_ne_zero hcount) hc)

/-! ### Mode and run control (rules R282, R288 and R289) -/

/-- Settles O43: the command is the update of that one field. -/
theorem modeIsSetAtOnce : Obligations.ModeIsSetAtOnce :=
  fun _ _ _ hin => step_cons hin

theorem State.start_of_running {s : State} (h : s.run = true) :
    s.start = s.configError .alreadyRunning := if_pos h

/-- Settles O44: `Start` looks at `run` alone, and `Stop` at nothing. -/
theorem startAndStopControlTheLoop : Obligations.StartAndStopControlTheLoop := by
  intro s es
  refine ⟨fun hin hrun => ?_, fun hin hrun => ?_, fun hin => ?_⟩
  · exact step_of_handle hin (congrArg _ (State.start_of_running (s := s.setInputs es) hrun))
  · exact step_start_of_stopped hin hrun
  · exact step_stop hin

/-! ### Every command at once (rules R283 and R303) -/

/-- What one event can make of the slave table. -/
inductive TableStep : Event → Memory → Memory → Prop
  | same (e : Event) (m : Memory) : TableStep e m m
  | reset (m : Memory) : TableStep .reset m []
  | bus {i : Instr} {m m' : Memory} (h : BusStores i m m') : TableStep .tick m m'
  | addSlave {a : Nat} {m : Memory} (hmin : 1 ≤ a) (hmax : a ≤ 247) (hfree : m.bank a = none) :
      TableStep (.addSlave a) m (m.insert a { hold := [], inp := [] })
  | removeSlave (a : Nat) (m : Memory) : TableStep (.removeSlave a) m (m.remove a)
  | addBlock {a length : Nat} {sp : Space} {start : Word} {m : Memory} {bk : Bank}
      (hbk : m.bank a = some bk) (hmin : 1 ≤ length) (hmax : start.toNat + length ≤ 65536)
      (hfree : (bk.blocks sp).any (fun b => b.intersects start.toNat length) = false) :
      TableStep (.addBlock a sp start length) m (m.setBank a (bk.withBlock sp start.toNat length))
  | hostWrite {a : Nat} {sp : Space} {start : Word} {values : List Word} {m m' : Memory}
      (h : m.hostStore a sp start.toNat values = .ok m') :
      TableStep (.hostWrite a sp start values) m m'

/-- What a command on the slave table does to `s`: it returns one of its errors and changes nothing,
or returns a result that is no error, with the table changed as the command may. -/
def CommandEnds (e : Event) (s t : State) : Prop :=
  (∃ x ∈ errorsOf e, t = s.configError x) ∨
    ∃ m r, TableStep e s.slaves m ∧ (∀ x, r ≠ .error x) ∧ t = (s.setSlaves m).result r

theorem CommandEnds.of_error {e : Event} {s t : State} {x : ConfigError} (hx : x ∈ errorsOf e)
    (h : t = s.configError x) : CommandEnds e s t := .inl ⟨x, hx, h⟩

theorem CommandEnds.of_ok {e : Event} {s t : State} {m : Memory} (hm : TableStep e s.slaves m)
    (h : t = (s.setSlaves m).result .ok) : CommandEnds e s t :=
  .inr ⟨m, .ok, hm, nofun, h⟩

theorem State.addSlave_ends (s : State) (a : Nat) : CommandEnds (.addSlave a) s (s.addSlave a) := by
  by_cases hvalid : a < 1 ∨ 247 < a
  · exact .of_error (by simp [errorsOf]) (State.addSlave_of_invalid hvalid)
  · have hmin : 1 ≤ a := by omega
    have hmax : a ≤ 247 := by omega
    cases hr : s.registered a with
    | true => exact .of_error (by simp [errorsOf]) (State.addSlave_of_registered hmin hmax hr)
    | false =>
      exact .of_ok (.addSlave hmin hmax (State.registered_eq_false_iff.1 hr))
        (State.addSlave_of_free hmin hmax hr)

theorem State.removeSlave_ends (s : State) (a : Nat) :
    CommandEnds (.removeSlave a) s (s.removeSlave a) := by
  cases hr : s.registered a with
  | false => exact .of_error (by simp [errorsOf]) (State.removeSlave_of_unregistered hr)
  | true => exact .of_ok (.removeSlave a s.slaves) (State.removeSlave_of_registered hr)

theorem State.addBlock_ends (s : State) (a : Nat) (sp : Space) (start : Word) (length : Nat) :
    CommandEnds (.addBlock a sp start length) s (s.addBlock a sp start length) := by
  cases hbk : s.slaves.bank a with
  | none => exact .of_error (by simp [errorsOf]) (State.addBlock_of_unregistered sp start length hbk)
  | some bk =>
    by_cases hvalid : length < 1 ∨ 65536 < start.toNat + length
    · exact .of_error (by simp [errorsOf]) (State.addBlock_of_invalid hbk hvalid)
    · have hmin : 1 ≤ length := by omega
      have hmax : start.toNat + length ≤ 65536 := by omega
      cases hany : (bk.blocks sp).any (fun b => b.intersects start.toNat length) with
      | true => exact .of_error (by simp [errorsOf]) (State.addBlock_of_overlap hbk hmin hmax hany)
      | false =>
        exact .of_ok (.addBlock hbk hmin hmax hany) (State.addBlock_of_free hbk hmin hmax hany)

theorem State.hostRead_ends (s : State) (a : Nat) (sp : Space) (start : Word) (count : Nat) :
    CommandEnds (.hostRead a sp start count) s (s.hostRead a sp start count) := by
  cases hr : s.registered a with
  | false => exact .of_error (by simp [errorsOf]) (State.hostRead_of_unregistered sp start count hr)
  | true =>
    by_cases hcount : count = 0
    · subst hcount
      exact .of_error (by simp [errorsOf]) (State.hostRead_of_zero sp start hr)
    · cases hread : s.slaves.read a sp start.toNat count with
      | ok vs => exact .inr ⟨s.slaves, .value vs, .same _ _, nofun, State.hostRead_of_ok hcount hread⟩
      | error x =>
        exact .of_error (by simp [errorsOf]) (State.hostRead_of_error hr hcount hread)

theorem State.hostWrite_ends (s : State) (a : Nat) (sp : Space) (start : Word)
    (values : List Word) :
    CommandEnds (.hostWrite a sp start values) s (s.hostWrite a sp start values) := by
  cases hr : s.registered a with
  | false => exact .of_error (by simp [errorsOf]) (State.hostWrite_of_unregistered sp start values hr)
  | true =>
    by_cases hv : values = []
    · subst hv
      exact .of_error (by simp [errorsOf]) (State.hostWrite_of_nil sp start hr)
    · cases hstore : s.slaves.hostStore a sp start.toNat values with
      | ok m => exact .of_ok (.hostWrite hstore) (State.hostWrite_of_ok hv hstore)
      | error x => exact .of_error (by simp [errorsOf]) (State.hostWrite_of_error hr hv hstore)

theorem CommandEnds.sameControl {e : Event} {s t : State} (h : CommandEnds e s t) :
    SameControl s t := by
  obtain ⟨x, -, rfl⟩ | ⟨m, r, -, -, rfl⟩ := h <;> exact .refl s

theorem CommandEnds.tableStep {e : Event} {s t : State} (h : CommandEnds e s t) :
    TableStep e s.slaves t.slaves := by
  obtain ⟨x, -, rfl⟩ | ⟨m, r, hm, -, rfl⟩ := h
  · exact .same e s.slaves
  · exact hm

/-! ### Errors change nothing (rule R303) -/

/-- If the event `e`, from `s` to `t`, ends in an error, it is one of its own and changed nothing. -/
def ErrorsKeep (e : Event) (s t : State) : Prop :=
  ∀ x, t.outputs = s.outputs ++ [.result (.error x)] → x ∈ errorsOf e ∧ t = s.configError x

theorem CommandEnds.errorsKeep {e : Event} {s t : State} (h : CommandEnds e s t) :
    ErrorsKeep e s t := by
  intro x hout
  obtain ⟨y, hy, rfl⟩ | ⟨m, r, -, hr, rfl⟩ := h
  · simp only [State.configError_outputs, List.append_cancel_left_eq, List.cons.injEq,
      Output.result.injEq, HostResult.error.injEq, and_true] at hout
    subst hout
    exact ⟨hy, rfl⟩
  · simp only [State.result_outputs, State.setSlaves_outputs, List.append_cancel_left_eq,
      List.cons.injEq, Output.result.injEq, and_true] at hout
    exact absurd hout (hr x)

/-- Between `s` and `t` something else was emitted than one error result. -/
def EndsInNoError (s t : State) : Prop := ∀ x, t.outputs ≠ s.outputs ++ [.result (.error x)]

theorem EndsInNoError.errorsKeep {s t : State} (h : EndsInNoError s t) (e : Event) :
    ErrorsKeep e s t :=
  fun x hout => absurd hout (h x)

theorem EndsInNoError.of_outputs {s t : State} (os : List Output)
    (h : t.outputs = s.outputs ++ os) (hos : ∀ x, os ≠ [.result (.error x)]) :
    EndsInNoError s t :=
  fun x hout => hos x (List.append_cancel_left (h.symm.trans hout))

theorem EndsInNoError.of_outputs_eq {s t : State} (h : t.outputs = s.outputs) :
    EndsInNoError s t :=
  .of_outputs [] (h.trans (List.append_nil _).symm) nofun

theorem RequestEmits.endsInNoError {req : Instr} {s t : State} (h : RequestEmits req s t) :
    EndsInNoError s t := by
  obtain hnone | ⟨k, f, hhook⟩ | ⟨-, -, rsp, hans⟩ := h
  · exact .of_outputs_eq hnone
  · exact .of_outputs _ hhook nofun
  · exact .of_outputs _ hans nofun

theorem tickEvent_endsInNoError {s t : State} (h : tickEvent s = .next t) : EndsInNoError s t := by
  obtain ⟨-, rfl⟩ | ⟨-, -, rfl⟩ | ⟨-, -, -, rfl⟩ | ⟨-, -, -, hexec⟩ := tickEvent_cases h
  · exact .of_outputs_eq s.countTick_outputs
  · exact .of_outputs [.asmDrop .shortFrame] rfl nofun
  · exact .of_outputs [.errorHook .crcMismatch s.asm.buf] rfl nofun
  · exact (exec_emits (decodeVerified_isRequest _) hexec).endsInNoError

theorem State.rxByte_endsInNoError (s : State) (b : Byte) : EndsInNoError s (s.rxByte b) := by
  obtain hnone | ⟨r, hdrop⟩ := s.rxByte_outputs b
  · exact .of_outputs_eq hnone
  · exact .of_outputs _ hdrop nofun

theorem State.start_errorsKeep (s : State) : ErrorsKeep .start s s.start := by
  cases hrun : s.run with
  | true =>
    rw [State.start_of_running hrun]
    exact CommandEnds.errorsKeep (.of_error (by simp [errorsOf]) rfl)
  | false =>
    rw [State.start_of_stopped hrun]
    exact EndsInNoError.errorsKeep (.of_outputs [.result .ok] rfl nofun) _

theorem handle_errorsKeep {e : Event} {s t : State} (h : handle e s = .next t) :
    ErrorsKeep e s t := by
  cases e with
  | reset => cases h; exact EndsInNoError.errorsKeep (.of_outputs_eq s.resetEvent_outputs) _
  | rxByte b => cases h; exact (s.rxByte_endsInNoError b).errorsKeep _
  | tick => exact (tickEvent_endsInNoError h).errorsKeep _
  | start => cases h; exact s.start_errorsKeep
  | stop => cases h; exact EndsInNoError.errorsKeep (.of_outputs [.result .ok] rfl nofun) _
  | addSlave a => cases h; exact (s.addSlave_ends a).errorsKeep
  | removeSlave a => cases h; exact (s.removeSlave_ends a).errorsKeep
  | addBlock a sp start length => cases h; exact (s.addBlock_ends a sp start length).errorsKeep
  | setErrOnMissingSlave v =>
    cases h
    exact EndsInNoError.errorsKeep (.of_outputs [.result .ok] rfl nofun) _
  | hostRead a sp start count => cases h; exact (s.hostRead_ends a sp start count).errorsKeep
  | hostWrite a sp start values => cases h; exact (s.hostWrite_ends a sp start values).errorsKeep

/-- Settles O46: a step that takes `e` does what handling `e` does, once `e` is taken. -/
theorem configurationErrorsChangeNothing : Obligations.ConfigurationErrorsChangeNothing := by
  intro s t e es x hin h hout
  rw [step_cons hin] at h
  exact handle_errorsKeep h x hout

end Sys2Proof.Machine
end

section
/-! PROOFS. The statements of the whole machine (10_state.md, 60_exceptions.md section 5 and
70_reset_and_hazards.md): what each event can change, and the invariant that every step keeps. -/

namespace Sys2Proof.Machine

open Sys2Proof.Claims

/-! ### The assembler's share of an event (rules R162 to R169) -/

/-- Nothing but the assembler changed between `s` and `t`, beside the banks and the outputs. -/
def OnlyAsm (s t : State) : Prop := SameControl (s.setAsm t.asm) t

theorem State.rxByte_onlyAsm (s : State) (b : Byte) : OnlyAsm s (s.rxByte b) := by
  obtain ⟨-, h⟩ | ⟨-, -, h⟩ | ⟨-, -, -, h⟩ | ⟨-, -, -, -, h⟩ | ⟨-, -, -, -, h⟩ :=
    s.rxByte_cases b <;> rw [h] <;> exact .refl _

theorem State.rxByte_slaves (s : State) (b : Byte) : (s.rxByte b).slaves = s.slaves := by
  obtain ⟨-, h⟩ | ⟨-, -, h⟩ | ⟨-, -, -, h⟩ | ⟨-, -, -, -, h⟩ | ⟨-, -, -, -, h⟩ :=
    s.rxByte_cases b <;> rw [h] <;> rfl

/-- A tick leaves the assembler counting, or empty; and what it changes of the rest is what the
instruction it dispatches, if any, changes. -/
theorem tickEvent_changes {s t : State} (h : tickEvent s = .next t) :
    OnlyAsm s t ∧ TableStep .tick s.slaves t.slaves ∧
      ((s.frameEnds = false ∧ t.asm = s.countTick.asm) ∨ t.asm = Assembler.empty) := by
  obtain ⟨hends, rfl⟩ | ⟨-, -, rfl⟩ | ⟨-, -, -, rfl⟩ | ⟨-, -, -, hexec⟩ := tickEvent_cases h
  · obtain ⟨-, hcount⟩ | ⟨-, -, hcount⟩ := s.countTick_cases <;> rw [hcount] <;>
      exact ⟨.refl _, .same _ _, .inl ⟨hends, rfl⟩⟩
  · exact ⟨.refl _, .same _ _, .inr rfl⟩
  · exact ⟨.refl _, .same _ _, .inr rfl⟩
  · obtain ⟨⟨hparams, hrun, hasm, hmode, hin⟩, hstores⟩ := exec_executes hexec
    exact ⟨⟨hparams, hrun, rfl, hmode, hin⟩, .bus hstores, .inr hasm⟩

/-! ### What each event can change (rules R5, R22, R24, R28, R30 and R310) -/

theorem State.start_slaves (s : State) : s.start.slaves = s.slaves := by
  cases hrun : s.run with
  | true => rw [State.start_of_running hrun, State.configError_slaves]
  | false => rw [State.start_of_stopped hrun]; rfl

theorem handle_tableStep {e : Event} {s t : State} (h : handle e s = .next t) :
    TableStep e s.slaves t.slaves := by
  cases e with
  | reset => cases h; exact .reset _
  | rxByte b => cases h; rw [State.rxByte_slaves]; exact .same _ _
  | tick => exact (tickEvent_changes h).2.1
  | start => cases h; rw [State.start_slaves]; exact .same _ _
  | stop => cases h; exact .same _ _
  | addSlave a => cases h; exact (s.addSlave_ends a).tableStep
  | removeSlave a => cases h; exact (s.removeSlave_ends a).tableStep
  | addBlock a sp start length => cases h; exact (s.addBlock_ends a sp start length).tableStep
  | setErrOnMissingSlave v => cases h; exact .same _ _
  | hostRead a sp start count => cases h; exact (s.hostRead_ends a sp start count).tableStep
  | hostWrite a sp start values => cases h; exact (s.hostWrite_ends a sp start values).tableStep

theorem Memory.map_fst_layout (m : Memory) : (layout m).map Prod.fst = m.map Prod.fst := by
  simp [layout]

theorem Memory.map_fst_eq_of_layout_eq {m m' : Memory} (h : layout m' = layout m) :
    m'.map Prod.fst = m.map Prod.fst := by
  rw [← Memory.map_fst_layout, h, Memory.map_fst_layout]

theorem Memory.map_fst_setBank (m : Memory) (a : Nat) (bk : Bank) :
    (m.setBank a bk).map Prod.fst = m.map Prod.fst := by
  induction m with
  | nil => rfl
  | cons e m ih =>
    rw [Memory.setBank]
    split_ifs
    · rfl
    · rw [List.map_cons, List.map_cons, ih]

theorem Memory.layout_of_hostStore {m m' : Memory} {a start : Nat} {sp : Space}
    {values : List Word} (h : m.hostStore a sp start values = .ok m') : layout m' = layout m := by
  obtain ⟨bk, bk', hbk, hstore, rfl⟩ := Memory.hostStore_cases h
  exact layout_setBank hbk (Bank.store_blockShapes hstore)

/-- The blocks of the banks come and go by four events only (rule R24). -/
theorem TableStep.layout_eq_or {e : Event} {m m' : Memory} (h : TableStep e m m') :
    layout m' = layout m ∨ (∃ a, e = .addSlave a) ∨ (∃ a, e = .removeSlave a) ∨ e = .reset ∨
      ∃ a sp start length, e = .addBlock a sp start length := by
  cases h with
  | same => exact .inl rfl
  | reset => exact .inr (.inr (.inr (.inl rfl)))
  | bus h => exact .inl h.layout_eq
  | addSlave => exact .inr (.inl ⟨_, rfl⟩)
  | removeSlave => exact .inr (.inr (.inl ⟨_, rfl⟩))
  | addBlock => exact .inr (.inr (.inr (.inr ⟨_, _, _, _, rfl⟩)))
  | hostWrite h => exact .inl (Memory.layout_of_hostStore h)

/-- The slaves come and go by three events only (rule R24). -/
theorem TableStep.map_fst_eq_or {e : Event} {m m' : Memory} (h : TableStep e m m') :
    m'.map Prod.fst = m.map Prod.fst ∨
      (∃ a, e = .addSlave a) ∨ (∃ a, e = .removeSlave a) ∨ e = .reset := by
  cases h with
  | same => exact .inl rfl
  | reset => exact .inr (.inr (.inr rfl))
  | bus h => exact .inl (Memory.map_fst_eq_of_layout_eq h.layout_eq)
  | addSlave => exact .inr (.inl ⟨_, rfl⟩)
  | removeSlave => exact .inr (.inr (.inl ⟨_, rfl⟩))
  | addBlock => exact .inl (Memory.map_fst_setBank _ _ _)
  | hostWrite h => exact .inl (Memory.map_fst_eq_of_layout_eq (Memory.layout_of_hostStore h))

/-! ### The input registers (rule R22) -/

theorem Memory.reg_input_setBank {m : Memory} {a : Nat} {bk bk' : Bank}
    (hbk : m.bank a = some bk) (h : bk'.inp = bk.inp) (a' i : Nat) :
    (m.setBank a bk').reg a' .input i = m.reg a' .input i := by
  rw [Memory.reg_eq_wordAt, Memory.reg_eq_wordAt]
  by_cases ha : a' = a
  · subst ha
    simp [Memory.bank_setBank_same hbk, hbk, Bank.blocks, h]
  · rw [Memory.bank_setBank_other ha]

theorem Bank.store_holding_inp {bk bk' : Bank} {start : Nat} {values : List Word}
    (h : bk.store .holding start values = .ok bk') : bk'.inp = bk.inp := by
  obtain ⟨bs, -, rfl⟩ := Bank.store_cases h
  rfl

theorem Bank.broadcastWrite_inp (bk : Bank) (start : Nat) (values : List Word) :
    (bk.broadcastWrite start values).inp = bk.inp := by
  unfold Bank.broadcastWrite
  split
  case h_1 bk' hw => exact Bank.store_holding_inp (Bank.write_cases hw).2
  case h_2 => rfl

theorem Memory.reg_input_of_hostStore_holding {m m' : Memory} {a start : Nat} {values : List Word}
    (h : m.hostStore a .holding start values = .ok m') (a' i : Nat) :
    m'.reg a' .input i = m.reg a' .input i := by
  obtain ⟨bk, bk', hbk, hstore, rfl⟩ := Memory.hostStore_cases h
  exact Memory.reg_input_setBank hbk (Bank.store_holding_inp hstore) a' i

theorem Memory.reg_input_broadcastWrite (m : Memory) (start : Nat) (values : List Word)
    (a i : Nat) : (m.broadcastWrite start values).reg a .input i = m.reg a .input i := by
  rw [Memory.reg_eq_wordAt, Memory.reg_eq_wordAt, Memory.bank_broadcastWrite]
  cases m.bank a with
  | none => rfl
  | some bk => simp [Bank.blocks, Bank.broadcastWrite_inp]

/-- A new slave has no register yet, as its address had none before. -/
theorem Memory.reg_insert_empty {m : Memory} {a : Nat} (h : m.bank a = none) (a' : Nat) (sp : Space)
    (i : Nat) : Memory.reg (m.insert a { hold := [], inp := [] }) a' sp i = m.reg a' sp i := by
  rw [Memory.reg_eq_wordAt, Memory.reg_eq_wordAt, Memory.bank_insert h]
  by_cases ha : a' = a
  · subst ha
    cases sp <;> simp [h, Bank.blocks]
  · rw [if_neg ha]

theorem BusStores.reg_input_eq {i : Instr} {m m' : Memory} (h : BusStores i m m') (a j : Nat) :
    m'.reg a .input j = m.reg a .input j := by
  obtain rfl | ⟨dst, start, values, -, ⟨-, hw⟩ | ⟨-, rfl⟩⟩ := h
  · rfl
  · exact Memory.reg_input_of_hostStore_holding hw a j
  · exact Memory.reg_input_broadcastWrite m _ _ a j

theorem TableStep.reg_input_eq_or {e : Event} {m m' : Memory} (h : TableStep e m m') :
    (∀ a i, m'.reg a .input i = m.reg a .input i) ∨ (∃ a, e = .removeSlave a) ∨ e = .reset ∨
      (∃ a start length, e = .addBlock a .input start length) ∨
      ∃ a start values, e = .hostWrite a .input start values := by
  cases h with
  | same => exact .inl fun _ _ => rfl
  | reset => exact .inr (.inr (.inl rfl))
  | bus h => exact .inl h.reg_input_eq
  | addSlave _ _ hfree => exact .inl fun a i => Memory.reg_insert_empty hfree a .input i
  | removeSlave => exact .inr (.inl ⟨_, rfl⟩)
  | @addBlock a length sp start m bk hbk =>
    cases sp with
    | holding => exact .inl (Memory.reg_input_setBank hbk rfl)
    | input => exact .inr (.inr (.inr (.inl ⟨_, _, _, rfl⟩)))
  | @hostWrite a sp start values m m' h =>
    cases sp with
    | holding => exact .inl (Memory.reg_input_of_hostStore_holding h)
    | input => exact .inr (.inr (.inr (.inr ⟨_, _, _, rfl⟩)))

/-! ### Run control, mode and assembler (rules R5, R28, R30 and R310) -/

/-- What the event `e` can have changed between `s` and `t`, beside the slave table and the outputs. -/
def ControlStep (e : Event) (s t : State) : Prop :=
  t.params = s.params ∧ t.inputs = s.inputs ∧
    (t.run = s.run ∨ e = .start ∨ e = .stop ∨ e = .reset) ∧
    (t.errOnMissingSlave = s.errOnMissingSlave ∨
      (∃ v, e = .setErrOnMissingSlave v) ∨ e = .reset) ∧
    (t.asm = s.asm ∨ (∃ b, e = .rxByte b) ∨ e = .tick ∨ e = .start ∨ e = .stop ∨ e = .reset)

theorem SameControl.controlStep {s t : State} (h : SameControl s t) (e : Event) :
    ControlStep e s t := by
  obtain ⟨hparams, hrun, hasm, hmode, hin⟩ := h
  exact ⟨hparams, hin, .inl hrun, .inl hmode, .inl hasm⟩

theorem OnlyAsm.controlStep {e : Event} {s t : State} (h : OnlyAsm s t)
    (he : (∃ b, e = .rxByte b) ∨ e = .tick) : ControlStep e s t := by
  obtain ⟨hparams, hrun, -, hmode, hin⟩ := h
  exact ⟨hparams, hin, .inl hrun, .inl hmode, .inr (he.imp_right .inl)⟩

theorem State.start_controlStep (s : State) : ControlStep .start s s.start := by
  cases hrun : s.run with
  | true =>
    rw [State.start_of_running hrun]
    exact (SameControl.refl s).controlStep _
  | false =>
    rw [State.start_of_stopped hrun]
    exact ⟨rfl, rfl, .inr (.inl rfl), .inl rfl, .inr (.inr (.inr (.inl rfl)))⟩

theorem handle_controlStep {e : Event} {s t : State} (h : handle e s = .next t) :
    ControlStep e s t := by
  cases e with
  | reset =>
    cases h
    exact ⟨rfl, rfl, .inr (.inr (.inr rfl)), .inr (.inr rfl), .inr (.inr (.inr (.inr (.inr rfl))))⟩
  | rxByte b => cases h; exact (s.rxByte_onlyAsm b).controlStep (.inl ⟨b, rfl⟩)
  | tick => exact (tickEvent_changes h).1.controlStep (.inr rfl)
  | start => cases h; exact s.start_controlStep
  | stop =>
    cases h
    exact ⟨rfl, rfl, .inr (.inr (.inl rfl)), .inl rfl, .inr (.inr (.inr (.inr (.inl rfl))))⟩
  | setErrOnMissingSlave v =>
    cases h
    exact ⟨rfl, rfl, .inl rfl, .inr (.inl ⟨v, rfl⟩), .inl rfl⟩
  | addSlave a => cases h; exact (s.addSlave_ends a).sameControl.controlStep _
  | removeSlave a => cases h; exact (s.removeSlave_ends a).sameControl.controlStep _
  | addBlock a sp start length =>
    cases h; exact (s.addBlock_ends a sp start length).sameControl.controlStep _
  | hostRead a sp start count =>
    cases h; exact (s.hostRead_ends a sp start count).sameControl.controlStep _
  | hostWrite a sp start values =>
    cases h; exact (s.hostWrite_ends a sp start values).sameControl.controlStep _

/-- Settles O50: each clause is one field of what handling the event can change. -/
theorem controlStateChangesOnlyByItsOwnEvents :
    Obligations.ControlStateChangesOnlyByItsOwnEvents := by
  intro s t e es hin h
  rw [step_cons hin] at h
  obtain ⟨hparams, hinputs, hrun, hmode, hasm⟩ := handle_controlStep h
  have htable := handle_tableStep h
  refine ⟨hparams, hinputs, hrun.resolve_left, hmode.resolve_left,
    htable.map_fst_eq_or.resolve_left, htable.layout_eq_or.resolve_left, ?_, hasm.resolve_left⟩
  rintro ⟨a, i, hne⟩
  exact htable.reg_input_eq_or.resolve_left fun heq => hne (heq a i)

/-! ### The invariant (rules R23, R24, R26 and R27) -/

theorem BusStores.wf {i : Instr} {m m' : Memory} (h : BusStores i m m') (hm : m.wf = true) :
    Memory.wf m' = true := by
  obtain rfl | ⟨dst, start, values, -, ⟨-, hw⟩ | ⟨-, rfl⟩⟩ := h
  · exact hm
  · exact Memory.write_wf hm hw
  · exact Memory.broadcastWrite_wf _ _ hm

theorem TableStep.wf {e : Event} {m m' : Memory} (h : TableStep e m m') (hm : m.wf = true) :
    Memory.wf m' = true := by
  cases h with
  | same => exact hm
  | reset => rfl
  | bus h => exact h.wf hm
  | addSlave hmin hmax hfree => exact Memory.insert_wf hm hmin hmax emptyBank_wf hfree
  | removeSlave => exact Memory.remove_wf hm
  | addBlock hbk hmin hmax hfree =>
    exact Memory.setBank_wf hm (Bank.addBlock_wf (Memory.bank_wf hm hbk) hmin hmax hfree)
  | hostWrite h => exact Memory.hostStore_wf hm h

theorem Params.legal_bounds {p : Params} (h : p.legal = true) : 1 ≤ p.tIC ∧ p.tIC ≤ p.tIF :=
  of_decide_eq_true h

theorem Assembler.sound_first {p : Params} (b : Byte) (h : p.legal = true) :
    (Assembler.first b).sound p = true := by
  obtain ⟨hic, hif⟩ := Params.legal_bounds h
  refine (Assembler.sound_receiving rfl).2 ⟨List.cons_ne_nil b [], ?_, ?_⟩
  · simp [Assembler.first, Assembler.len]
  · exact Nat.lt_of_lt_of_le hic hif

theorem State.rxByte_asm_sound {s : State} (b : Byte) (hlegal : s.params.legal = true)
    (h : s.asm.sound s.params = true) : (s.rxByte b).asm.sound s.params = true := by
  obtain ⟨-, hs⟩ | ⟨-, -, hs⟩ | ⟨-, -, -, hs⟩ | ⟨-, hrecv, -, hlen, hs⟩ | ⟨-, -, -, -, hs⟩ :=
    s.rxByte_cases b <;> rw [hs]
  · exact h
  · exact Assembler.sound_first b hlegal
  · exact Assembler.sound_first b hlegal
  · obtain ⟨hic, hif⟩ := Params.legal_bounds hlegal
    refine (Assembler.sound_receiving (asm := { s.asm with buf := s.asm.buf ++ [b], sil := 0 })
      hrecv).2 ⟨by simp, ?_, Nat.lt_of_lt_of_le hic hif⟩
    simpa [Assembler.len] using hlen
  · exact Assembler.sound_empty _

theorem State.countTick_asm_sound {s : State} (hends : s.frameEnds = false)
    (h : s.asm.sound s.params = true) : s.countTick.asm.sound s.params = true := by
  obtain ⟨-, hs⟩ | ⟨hrun, hrecv, hs⟩ := s.countTick_cases <;> rw [hs]
  · exact h
  · obtain ⟨hbuf, hlen, -⟩ := (Assembler.sound_receiving hrecv).1 h
    refine (Assembler.sound_receiving (asm := { s.asm with sil := s.asm.sil + 1 })
      hrecv).2 ⟨hbuf, hlen, ?_⟩
    -- a silence that reached `T_IF` would have ended the frame
    by_contra hsil
    have := (State.frameEnds_iff s).2 ⟨hrun, hrecv, Nat.le_of_not_lt hsil⟩
    simp [hends] at this

theorem State.start_asm_sound {s : State} (h : s.asm.sound s.params = true) :
    s.start.asm.sound s.params = true := by
  cases hrun : s.run with
  | true => rw [State.start_of_running hrun]; exact h
  | false => rw [State.start_of_stopped hrun]; exact Assembler.sound_empty _

theorem handle_asm_sound {e : Event} {s t : State} (hlegal : s.params.legal = true)
    (hasm : s.asm.sound s.params = true) (h : handle e s = .next t) :
    t.asm.sound s.params = true := by
  obtain ⟨-, -, -, -, heq | ⟨b, rfl⟩ | rfl | rfl | rfl | rfl⟩ := handle_controlStep h
  · rw [heq]; exact hasm
  · cases h; exact State.rxByte_asm_sound b hlegal hasm
  · obtain ⟨-, -, ⟨hends, heq⟩ | heq⟩ := tickEvent_changes h <;> rw [heq]
    · exact State.countTick_asm_sound hends hasm
    · exact Assembler.sound_empty _
  · cases h; exact State.start_asm_sound hasm
  · cases h; exact Assembler.sound_empty _
  · cases h; exact Assembler.sound_empty _

theorem handle_sound {e : Event} {s t : State} (hs : s.sound = true)
    (h : handle e s = .next t) : t.sound = true := by
  obtain ⟨hlegal, hasm, hwf⟩ := s.sound_iff.1 hs
  obtain ⟨hparams, -⟩ := handle_controlStep h
  refine t.sound_iff.2 ⟨?_, ?_, (handle_tableStep h).wf hwf⟩ <;> rw [hparams]
  · exact hlegal
  · exact handle_asm_sound hlegal hasm h

/-- Settles O48: the events to come are no part of the invariant, and handling one keeps each part. -/
theorem everyStepKeepsTheStateSound : Obligations.EveryStepKeepsTheStateSound := by
  intro s t hs h
  cases hin : s.inputs with
  | nil =>
    rw [step_nil hin] at h
    cases h
    exact hs
  | cons e es =>
    rw [step_cons hin] at h
    exact handle_sound (s := s.setInputs es) hs h

theorem State.resetOf_sound {p : Params} (h : p.legal = true) : (State.resetOf p).sound = true :=
  (State.sound_iff _).2 ⟨h, Assembler.sound_empty p, rfl⟩

/-- Settles O49: after reset the assembler is empty and the table has no entry. -/
theorem resetStateIsSound : Obligations.ResetStateIsSound :=
  ⟨fun _ => State.resetOf_sound, State.resetOf_sound rfl⟩

/-! ### `Reset`, and no event at all (rules R8, R34 and R340) -/

/-- Settles O47: every field of the reset state is the one written out. -/
theorem resetEventClearsEverything : Obligations.ResetEventClearsEverything :=
  fun _ _ hin => step_cons hin

/-- Settles O51: a step looks at the events to come first, and there is none. -/
theorem noEventNoChange : Obligations.NoEventNoChange := fun _ => step_nil

end Sys2Proof.Machine
end

section
/-! PROOFS. The statements of 45_device_model.md: what a relay takes over from a state word, and which
settings of a switch write a register. -/

namespace Sys2Proof.Machine

open Sys2Proof.Claims

/-! ### The channels of a state word (rules R403 and R406) -/

/-- The channel vector a relay of ten channels takes over is that of rule R403. -/
theorem channelsOfWord_relay {d : Device} (w : Word) {cs : List Bool} (hk : d.kind = .relay)
    (hlen : cs.length = 10) : d.channelsOfWord w 0 cs = relayChannels d.ch8Low w := by
  match cs, hlen with
  | [c0, c1, c2, c3, c4, c5, c6, c7, c8, c9], _ =>
    cases hlow : d.ch8Low <;>
      simp [Device.channelsOfWord, Device.channelOfWord, Device.channelBit, hk, hlow, relayChannels]

/-- The state word of a relay with those channels has the word's ten channel bits and no other. -/
theorem stateWord_relayChannels {d : Device} (w : Word) (hk : d.kind = .relay)
    (hc : d.channels = relayChannels d.ch8Low w) : d.stateWord = w &&& 0xFF03#16 := by
  apply BitVec.eq_of_getLsbD_eq
  intro i hi
  rw [Device.stateWord, hc]
  cases hlow : d.ch8Low <;>
    simp only [relayChannels, Bool.false_eq_true, if_false, if_true, List.cons_append,
      List.nil_append, getLsbD_wordFrom_cons, wordFrom_nil, Device.channelBit, hk, hlow]
  · interval_cases i <;> simp
  · interval_cases i <;> simp

theorem onRegisterWrite_relay {d : Device} (w : Word) (hk : d.kind = .relay)
    (hlen : d.channels.length = 10) :
    d.onRegisterWrite 0x10 [w] = ({ d with channels := relayChannels d.ch8Low w },
      changedChannels 0 d.channels (relayChannels d.ch8Low w)) := by
  have hchannels := channelsOfWord_relay w hk hlen
  simp [Device.onRegisterWrite, hk, hchannels]

theorem relayChannels_length (ch8Low : Bool) (w : Word) : (relayChannels ch8Low w).length = 10 := by
  cases ch8Low <;> rfl

/-- Settles O52: the relay takes the channels of the word, and its callbacks are those of the channels
that changed. -/
theorem relayFollowsAnExternalWrite : Obligations.RelayFollowsAnExternalWrite := by
  intro d w hk hlen
  have hsame : d.channels.length = (relayChannels d.ch8Low w).length := by
    rw [hlen, relayChannels_length]
  rw [onRegisterWrite_relay w hk hlen]
  refine ⟨rfl, nodup_changedChannels _ _ _, fun i v => ?_, stateWord_relayChannels w hk rfl⟩
  rw [mem_changedChannels 0 _ _ hsame]
  simp

/-! ### Setting a switch (rule R405) -/

theorem setSwitchState_of_equal {d : Device} {i : Nat} {on : Bool} (h : d.channels[i]? = some on) :
    d.setSwitchState i on = (d, []) := by
  unfold Device.setSwitchState
  cases stateSpace d.kind with
  | none => rfl
  | some sp => simp [h]

theorem setSwitchState_of_absent {d : Device} {i : Nat} (on : Bool) (h : d.channels[i]? = none) :
    d.setSwitchState i on = (d, []) := by
  unfold Device.setSwitchState
  cases stateSpace d.kind <;> simp [h]

theorem setSwitchState_of_stateless {d : Device} (i : Nat) (on : Bool)
    (h : stateSpace d.kind = none) : d.setSwitchState i on = (d, []) := by
  simp [Device.setSwitchState, h]

theorem setSwitchState_of_change {d : Device} {i : Nat} {on : Bool} {sp : Space}
    (hsp : stateSpace d.kind = some sp) (h : d.channels[i]? = some (!on)) :
    d.setSwitchState i on =
      ({ d with channels := d.channels.set i on },
        [.hostWrite d.addr sp 0x10#16
          [({ d with channels := d.channels.set i on }).stateWord]]) := by
  simp [Device.setSwitchState, hsp, h]

/-- After a setting, the channel has the state set, or there is none to set. -/
theorem setSwitchState_twice (d : Device) (i : Nat) (on : Bool) :
    ((d.setSwitchState i on).1.setSwitchState i on).2 = [] := by
  cases hsp : stateSpace d.kind with
  | none => rw [setSwitchState_of_stateless i on hsp, setSwitchState_of_stateless i on hsp]
  | some sp =>
    cases hi : d.channels[i]? with
    | none => rw [setSwitchState_of_absent on hi, setSwitchState_of_absent on hi]
    | some old =>
      by_cases ho : old = on
      · subst ho
        rw [setSwitchState_of_equal hi, setSwitchState_of_equal hi]
      · have hnot : d.channels[i]? = some (!on) := by
          rw [hi, Bool.eq_not_of_ne ho]
        obtain ⟨hlt, -⟩ := List.getElem?_eq_some_iff.1 hi
        rw [setSwitchState_of_change hsp hnot, setSwitchState_of_equal (by simp [hlt])]

/-- Settles O53: equal, absent and changed channels are the three outcomes of a setting. -/
theorem switchWritesAreSuppressed : Obligations.SwitchWritesAreSuppressed :=
  fun d i on => ⟨setSwitchState_of_equal, setSwitchState_of_absent on, setSwitchState_twice d i on,
    fun _ hsp h => setSwitchState_of_change hsp h⟩

end Sys2Proof.Machine
end
